-- ==== Sys2Proof/Word.lean ====
section
/-! DEFINITION. Word.lean: the widths of the machine's values (spec/00_scope.md R9, R14): a nibble, a byte, a 12-bit address, a 16-bit word. -/

namespace Sys2Proof

/-- A 4-bit field of an opcode: a register number or a sprite height (R71). -/
abbrev Nibble := BitVec 4

/-- A byte, the u8 of R9: a register value, a memory cell, an immediate `kk`. -/
abbrev Byte := BitVec 8

/-- The 12-bit immediate address `nnn` (R72). -/
abbrev Addr := BitVec 12

/-- The u16 of R9: an opcode word, `I`, `pc`, a return address. -/
abbrev Word := BitVec 16

end Sys2Proof
end

