-- ==== Sys2Proof/Syntax.lean ====
section
/-! DEFINITION. Syntax.lean: the instructions, one constructor per row of spec/opcode_table.json (spec/30_encoding.md R73), with the ignored fields of R74 kept so that a word is never forgotten. -/

namespace Sys2Proof

/-- An instruction. `x`, `y` are register numbers, `kk` an immediate byte, `nnn` an address, `n` a height (R71). -/
inductive Instr where
  /-- `00E0` CLS (R190) -/
  | cls
  /-- `00EE` RET (R120) -/
  | ret
  /-- `1nnn` JP addr (R121) -/
  | jp (nnn : Addr)
  /-- `2nnn` CALL addr (R122) -/
  | call (nnn : Addr)
  /-- `3xkk` SE Vx, byte (R124) -/
  | seByte (x : Nibble) (kk : Byte)
  /-- `4xkk` SNE Vx, byte (R125) -/
  | sneByte (x : Nibble) (kk : Byte)
  /-- `5xy_` SE Vx, Vy (R126); `z` is the ignored `op[3:0]` -/
  | seReg (x y z : Nibble)
  /-- `6xkk` LD Vx, byte (R142) -/
  | ldByte (x : Nibble) (kk : Byte)
  /-- `7xkk` ADD Vx, byte (R143) -/
  | addByte (x : Nibble) (kk : Byte)
  /-- `8xy0` LD Vx, Vy (R144) -/
  | ldReg (x y : Nibble)
  /-- `8xy1` OR Vx, Vy (R145) -/
  | orReg (x y : Nibble)
  /-- `8xy2` AND Vx, Vy (R146) -/
  | andReg (x y : Nibble)
  /-- `8xy3` XOR Vx, Vy (R147) -/
  | xorReg (x y : Nibble)
  /-- `8xy4` ADD Vx, Vy (R148) -/
  | addReg (x y : Nibble)
  /-- `8xy5` SUB Vx, Vy (R149) -/
  | subReg (x y : Nibble)
  /-- `8xy6` SHR Vx (R150); `y` is ignored -/
  | shr (x y : Nibble)
  /-- `8xy7` SUBN Vx, Vy (R151) -/
  | subnReg (x y : Nibble)
  /-- `8xyE` SHL Vx (R152); `y` is ignored -/
  | shl (x y : Nibble)
  /-- `9xy_` SNE Vx, Vy (R127); `z` is the ignored `op[3:0]` -/
  | sneReg (x y z : Nibble)
  /-- `Annn` LD I, addr (R170) -/
  | ldI (nnn : Addr)
  /-- `Bnnn` JP V0, addr (R123) -/
  | jpV0 (nnn : Addr)
  /-- `Cxkk` RND Vx, byte (R154) -/
  | rnd (x : Nibble) (kk : Byte)
  /-- `Dxyn` DRW Vx, Vy, nibble (R193) -/
  | drw (x y n : Nibble)
  /-- `Ex9E` SKP Vx (R213) -/
  | skp (x : Nibble)
  /-- `ExA1` SKNP Vx (R214) -/
  | sknp (x : Nibble)
  /-- `Fx07` LD Vx, DT (R210) -/
  | ldVxDt (x : Nibble)
  /-- `Fx0A` LD Vx, K (R215) -/
  | ldVxK (x : Nibble)
  /-- `Fx15` LD DT, Vx (R211) -/
  | ldDtVx (x : Nibble)
  /-- `Fx18` LD ST, Vx (R212) -/
  | ldStVx (x : Nibble)
  /-- `Fx1E` ADD I, Vx (R171) -/
  | addI (x : Nibble)
  /-- `Fx29` LD F, Vx (R172) -/
  | ldF (x : Nibble)
  /-- `Fx33` LD B, Vx (R173) -/
  | ldB (x : Nibble)
  /-- `Fx55` LD [I], Vx (R174) -/
  | ldMemVx (x : Nibble)
  /-- `Fx65` LD Vx, [I] (R175) -/
  | ldVxMem (x : Nibble)
  /-- every other word `w`: the no-op (R128) -/
  | noOp (w : Word)
  deriving DecidableEq, Repr

end Sys2Proof
end

