-- ==== Sys2Proof/WellFormed.lean ====
section
/-! DEFINITION. WellFormed.lean: the one check an instruction needs: a no-op carries a word that spec/30_encoding.md R80 calls unrecognised. -/

namespace Sys2Proof

/-- The low bytes that select an instruction in class F (R73, R80). -/
def classFSelectors : List Byte := [0x07, 0x0A, 0x15, 0x18, 0x1E, 0x29, 0x33, 0x55, 0x65]

/-- The words of R80, in its order: class 0 but two words, class 8 with seven of its selectors, class E but two low bytes, class F
outside nine low bytes. -/
def unrecognised (w : Word) : Bool :=
  let cls : Nibble := w.extractLsb' 12 4
  let low : Byte := w.extractLsb' 0 8
  (cls == 0x0 && w != 0x00E0 && w != 0x00EE) ||
  (cls == 0x8 && [0x8, 0x9, 0xA, 0xB, 0xC, 0xD, 0xF].contains (w.extractLsb' 0 4 : Nibble)) ||
  (cls == 0xE && low != 0x9E && low != 0xA1) ||
  (cls == 0xF && !classFSelectors.contains low)

/-- Every combination of operands is an instruction; a no-op is one only for an unrecognised word (R80, R82). -/
def Instr.wellFormed : Instr → Bool
  | .noOp w => unrecognised w
  | _ => true

end Sys2Proof
end

