-- ==== Sys2Proof/Decode.lean ====
section
/-! DEFINITION. Decode.lean: the dispatch tree of spec/30_encoding.md R73 over the fields of R71, the encoder, and decoding of bytes and of the opcode table's words. -/

namespace Sys2Proof

/-! ## Fields (R71) -/

/-- `op[15:12]` -/
def fieldClass (w : Word) : Nibble := w.extractLsb' 12 4
/-- `x = op[11:8]` -/
def fieldX (w : Word) : Nibble := w.extractLsb' 8 4
/-- `y = op[7:4]` -/
def fieldY (w : Word) : Nibble := w.extractLsb' 4 4
/-- `n = op[3:0]` -/
def fieldN (w : Word) : Nibble := w.extractLsb' 0 4
/-- `kk = op[7:0]` -/
def fieldKK (w : Word) : Byte := w.extractLsb' 0 8
/-- `nnn = op[11:0]` -/
def fieldNNN (w : Word) : Addr := w.extractLsb' 0 12

/-! ## The dispatch tree (R73) -/

/-- Class 0: two whole words. -/
def decodeClass0 (w : Word) : Instr :=
  if w = 0x00E0 then .cls
  else if w = 0x00EE then .ret
  else .noOp w

/-- Class 8: selected by `op[3:0]`. -/
def decodeClass8 (w : Word) : Instr :=
  let x := fieldX w
  let y := fieldY w
  if fieldN w = 0x0 then .ldReg x y
  else if fieldN w = 0x1 then .orReg x y
  else if fieldN w = 0x2 then .andReg x y
  else if fieldN w = 0x3 then .xorReg x y
  else if fieldN w = 0x4 then .addReg x y
  else if fieldN w = 0x5 then .subReg x y
  else if fieldN w = 0x6 then .shr x y
  else if fieldN w = 0x7 then .subnReg x y
  else if fieldN w = 0xE then .shl x y
  else .noOp w

/-- Class E: selected by `op[7:0]`. -/
def decodeClassE (w : Word) : Instr :=
  if fieldKK w = 0x9E then .skp (fieldX w)
  else if fieldKK w = 0xA1 then .sknp (fieldX w)
  else .noOp w

/-- Class F: selected by `op[7:0]`. -/
def decodeClassF (w : Word) : Instr :=
  let x := fieldX w
  if fieldKK w = 0x07 then .ldVxDt x
  else if fieldKK w = 0x0A then .ldVxK x
  else if fieldKK w = 0x15 then .ldDtVx x
  else if fieldKK w = 0x18 then .ldStVx x
  else if fieldKK w = 0x1E then .addI x
  else if fieldKK w = 0x29 then .ldF x
  else if fieldKK w = 0x33 then .ldB x
  else if fieldKK w = 0x55 then .ldMemVx x
  else if fieldKK w = 0x65 then .ldVxMem x
  else .noOp w

/-- `Decode(op)` (R73, R103): total, one leaf for each of the 65536 words (R82). -/
def decodeWord (w : Word) : Instr :=
  if fieldClass w = 0x0 then decodeClass0 w
  else if fieldClass w = 0x1 then .jp (fieldNNN w)
  else if fieldClass w = 0x2 then .call (fieldNNN w)
  else if fieldClass w = 0x3 then .seByte (fieldX w) (fieldKK w)
  else if fieldClass w = 0x4 then .sneByte (fieldX w) (fieldKK w)
  else if fieldClass w = 0x5 then .seReg (fieldX w) (fieldY w) (fieldN w)
  else if fieldClass w = 0x6 then .ldByte (fieldX w) (fieldKK w)
  else if fieldClass w = 0x7 then .addByte (fieldX w) (fieldKK w)
  else if fieldClass w = 0x8 then decodeClass8 w
  else if fieldClass w = 0x9 then .sneReg (fieldX w) (fieldY w) (fieldN w)
  else if fieldClass w = 0xA then .ldI (fieldNNN w)
  else if fieldClass w = 0xB then .jpV0 (fieldNNN w)
  else if fieldClass w = 0xC then .rnd (fieldX w) (fieldKK w)
  else if fieldClass w = 0xD then .drw (fieldX w) (fieldY w) (fieldN w)
  else if fieldClass w = 0xE then decodeClassE w
  else decodeClassF w

/-! ## Bytes (R54, R70) -/

/-- The word whose byte at the lower address is `hi`: big-endian (R54, D1, log 7). -/
def wordOfBytes (hi lo : Byte) : Word := hi ++ lo

/-- The bytes of a word as memory holds them, lower address first (R54). -/
def bytesOfWord (w : Word) : List Byte := [w.extractLsb' 8 8, w.extractLsb' 0 8]

/-- Why bytes are no instruction: none of the 65536 words is refused (R81, R82), so the only reason is that a byte is missing. -/
inductive DecodeError where
  /-- fewer than the 2 bytes every instruction has (R70); safe, since nothing is decoded -/
  | tooShort
  deriving DecidableEq, Repr

/-- Decoding of a byte sequence: exactly 2 bytes are consumed (R70), and the rest is handed back. -/
def decodeBytes : List Byte → Except DecodeError (Instr × List Byte)
  | hi :: lo :: rest => .ok (decodeWord (wordOfBytes hi lo), rest)
  | _ => .error .tooShort

/-! ## Encoding (R71, R73, R90): each word written as the pattern of its row -/

/-- The word of an instruction. -/
def encode : Instr → Word
  | .cls => 0x00E0
  | .ret => 0x00EE
  | .jp nnn => 0x1#4 ++ nnn
  | .call nnn => 0x2#4 ++ nnn
  | .seByte x kk => 0x3#4 ++ x ++ kk
  | .sneByte x kk => 0x4#4 ++ x ++ kk
  | .seReg x y z => 0x5#4 ++ x ++ y ++ z
  | .ldByte x kk => 0x6#4 ++ x ++ kk
  | .addByte x kk => 0x7#4 ++ x ++ kk
  | .ldReg x y => 0x8#4 ++ x ++ y ++ 0x0#4
  | .orReg x y => 0x8#4 ++ x ++ y ++ 0x1#4
  | .andReg x y => 0x8#4 ++ x ++ y ++ 0x2#4
  | .xorReg x y => 0x8#4 ++ x ++ y ++ 0x3#4
  | .addReg x y => 0x8#4 ++ x ++ y ++ 0x4#4
  | .subReg x y => 0x8#4 ++ x ++ y ++ 0x5#4
  | .shr x y => 0x8#4 ++ x ++ y ++ 0x6#4
  | .subnReg x y => 0x8#4 ++ x ++ y ++ 0x7#4
  | .shl x y => 0x8#4 ++ x ++ y ++ 0xE#4
  | .sneReg x y z => 0x9#4 ++ x ++ y ++ z
  | .ldI nnn => 0xA#4 ++ nnn
  | .jpV0 nnn => 0xB#4 ++ nnn
  | .rnd x kk => 0xC#4 ++ x ++ kk
  | .drw x y n => 0xD#4 ++ x ++ y ++ n
  | .skp x => 0xE#4 ++ x ++ 0x9E#8
  | .sknp x => 0xE#4 ++ x ++ 0xA1#8
  | .ldVxDt x => 0xF#4 ++ x ++ 0x07#8
  | .ldVxK x => 0xF#4 ++ x ++ 0x0A#8
  | .ldDtVx x => 0xF#4 ++ x ++ 0x15#8
  | .ldStVx x => 0xF#4 ++ x ++ 0x18#8
  | .addI x => 0xF#4 ++ x ++ 0x1E#8
  | .ldF x => 0xF#4 ++ x ++ 0x29#8
  | .ldB x => 0xF#4 ++ x ++ 0x33#8
  | .ldMemVx x => 0xF#4 ++ x ++ 0x55#8
  | .ldVxMem x => 0xF#4 ++ x ++ 0x65#8
  | .noOp w => w

/-- The bytes of an instruction as memory holds them (R54). -/
def encodeBytes (i : Instr) : List Byte := bytesOfWord (encode i)

/-! ## The opcode table's numbering -/

/-- The word the host numbers `w`, of `nbits` bits: the machine's words have 16 bits, and bits above `nbits` are 0. -/
def tableWord (nbits w : Nat) : Word := BitVec.ofNat 16 (w % 2 ^ nbits)

/-- The instruction the decoder reads from the bytes of the table's word `w` (R54, R70). -/
def decodeTableWord (nbits w : Nat) : Option Instr :=
  match decodeBytes (bytesOfWord (tableWord nbits w)) with
  | .ok (i, _) => some i
  | .error _ => none

end Sys2Proof
end

