-- ==== Sys2Proof/Config.lean ====
section
/-! DEFINITION. Config.lean: the implementation parameters of spec/00_scope.md R7, fixed where the spec fixes them, and the values it leaves free (the font and the write order stand in Machine/Ops.lean and Machine/Flags.lean). -/

namespace Sys2Proof.Config

/-- `MEM_SIZE` (R7, R50). -/
abbrev memSize : Nat := 4096

/-- `LAST_FETCH_ADDR`: the highest valid instruction-start address (R7, R53, R107). -/
abbrev lastFetchAddr : Nat := 4094

/-- `PROGRAM_BASE` (R7, R261). -/
abbrev programBase : Nat := 512

/-- `PC_START`: the reset value of `pc` (R7, R24). -/
abbrev pcStart : Nat := 512

/-- `FRAME_RATE`: frames per simulated second (R7, R108). -/
abbrev frameRate : Nat := 60

/-- The reference default of `CLOCK_SPEED` (R7, R34). DESIGN CHOICE (log 5): `State.reset` is given it; every statement about
reset is made for the other values too. -/
abbrev defaultClockSpeed : Nat := 600

/-- The two values of `VF_WRITE_ORDER` (R141). -/
inductive VfWriteOrder where
  | flagThenResult
  | resultThenFlag
  deriving DecidableEq, Repr

/-- The free byte of the `k`-th draw of `RNG` (R12, R154, D17): it has no body, so nothing can be proved of its value (log 1).
DESIGN CHOICE: a draw is numbered by a counter in the state. -/
opaque rng : Nat → Byte

/-- Which byte of a packed pixel encodes on and off: the spec does not say (R31, D20, log 6). Free. -/
opaque pixelChannel : Fin 4

/-- The value of that byte in an on pixel, less one: nonzero and otherwise free (R31, D20, log 6). -/
opaque pixelLevel : Fin 255

/-- The other bytes of an on pixel: not stated (R31, D20, log 6). Free. -/
opaque pixelOther : Fin 4 → Byte

/-- `PIXEL_ON`: the four bytes of an on pixel, nonzero in the on/off channel and otherwise free (R31, D20, log 6). -/
def pixelOn : Vector Byte 4 :=
  (Vector.ofFn pixelOther).set pixelChannel (BitVec.ofNat 8 (pixelLevel.val + 1)) pixelChannel.isLt

end Sys2Proof.Config
end

