-- ==== Sys2Proof/Machine/State.lean ====
section
/-! DEFINITION. Machine/State.lean: the state aggregate of spec/10_state.md R20 as plain data, the fault record of spec/60_exceptions.md R230, the reasons a step or a host call can stop, and reset (R40, R260). -/

namespace Sys2Proof.Machine

/-- The kinds of fault (R230). -/
inductive FaultKind where
  /-- RET with an empty stack (R231) -/
  | stackUnderflow
  /-- an access that reaches address 4096 or beyond (R232) -/
  | memoryOutOfBounds
  /-- a key skip with a register above 15 (R233) -/
  | keyIndexOutOfRange
  deriving DecidableEq, Repr

/-- The fault record `{kind, pc, opcode, info}` of R230. -/
structure FaultRecord where
  kind : FaultKind
  /-- the address of the failing instruction -/
  pc : Word
  /-- the word fetched; none for a fault in the fetch itself -/
  opcode : Option Word
  /-- the kind's value: none, the highest address of the access, or the register's value (R231-R233) -/
  info : Option Nat
  deriving DecidableEq, Repr

/-- The display: 32 rows of 64 pixels, row 0 on top and column 0 at the left (R30, D20). -/
abbrev Display := Vector (Vector Bool 64) 32

/-- Memory as the cells that differ from what they hold after reset (R50): addresses strictly rising. -/
abbrev Memory := List Host.Cell

/-- The machine state (R20), and two fields of the model's own. -/
structure State where
  /-- `mem`: the cells that differ from their reset contents (R50) -/
  mem : Memory
  /-- `V[0..15]` (R21) -/
  regs : Vector Byte 16
  /-- `I` (R23) -/
  regI : Word
  /-- `pc` (R24) -/
  pc : Word
  /-- `stack`, its last element on top (R10, R26) -/
  stack : List Word
  /-- `DT` (R27) -/
  dt : Byte
  /-- `ST` (R28) -/
  st : Byte
  /-- `key[0..15]` (R29) -/
  keys : Vector Bool 16
  /-- `disp` (R30) -/
  disp : Display
  /-- `waiting` (R32) -/
  waiting : Bool
  /-- `fault` (R33) -/
  fault : Option FaultRecord
  /-- `CLOCK_SPEED` (R34) -/
  clockSpeed : Nat
  /-- the model's own: how many bytes have been drawn from the free source of R154 (log 1, DESIGN CHOICE) -/
  rngDraws : Nat
  /-- the model's own: how many instructions of the current frame's batch have run, the loop counter of R106 (log 2, DESIGN CHOICE) -/
  slot : Nat
  deriving DecidableEq, Repr

/-- Why the machine stops. -/
inductive Fault where
  /-- raised by `step` alone, on a machine whose `fault` holds the record `r`: it is stopped for good (R105, R234). Safe: the
  hardware does not go on either. -/
  | stopped (r : FaultRecord)
  deriving DecidableEq, Repr

/-- Why a request has no move. -/
inductive Refusal where
  /-- raised by an arm of `exec` that has no meaning yet; no arm does. Safe. -/
  | notModelled (mnemonic : String)
  /-- raised by the host call that makes a new machine, for a clock speed of 0: R34 admits positive integers only (U6). Safe: the host has
  no such move. -/
  | clockSpeedNotPositive
  /-- raised by every host call made while a frame's batch is under way: the host has no such move (R247, U10). Safe. -/
  | hostCallDuringFrame
  deriving DecidableEq, Repr

/-- The state after `initialize(clockSpeed)` (R40, R260). -/
def State.afterReset (clockSpeed : Nat) : State where
  mem := []
  regs := Vector.replicate 16 0
  regI := 0
  pc := BitVec.ofNat 16 Config.pcStart
  stack := []
  dt := 0
  st := 0
  keys := Vector.replicate 16 false
  disp := Vector.replicate 32 (Vector.replicate 64 false)
  waiting := false
  fault := none
  clockSpeed := clockSpeed
  rngDraws := 0
  slot := 0

/-- The machine right after reset, at the reference default clock speed (R34, R40, log 5). -/
def State.reset : State := State.afterReset Config.defaultClockSpeed

end Sys2Proof.Machine
end

