-- ==== Sys2Proof/Machine/Ops.lean ====
section
/-! DEFINITION. Machine/Ops.lean: the named operations over memory, registers, stack, keys, display and timers, the fetch, and raising a fault (spec/00_scope.md R10-R13, spec/20_memory.md, spec/60_exceptions.md R230-R240). -/

namespace Sys2Proof.Machine

/-! ## Memory (R50-R58) -/

/-- `FONT_TABLE`: the 80 bytes of R35, glyph by glyph. PRESUMED by the spec from general knowledge, its decision D13 (log 3). -/
def fontTable : List Byte :=
  [0xF0, 0x90, 0x90, 0x90, 0xF0] ++ [0x20, 0x60, 0x20, 0x20, 0x70] ++
  [0xF0, 0x10, 0xF0, 0x80, 0xF0] ++ [0xF0, 0x10, 0xF0, 0x10, 0xF0] ++
  [0x90, 0x90, 0xF0, 0x10, 0x10] ++ [0xF0, 0x80, 0xF0, 0x10, 0xF0] ++
  [0xF0, 0x80, 0xF0, 0x90, 0xF0] ++ [0xF0, 0x10, 0x20, 0x40, 0x40] ++
  [0xF0, 0x90, 0xF0, 0x90, 0xF0] ++ [0xF0, 0x90, 0xF0, 0x10, 0xF0] ++
  [0xF0, 0x90, 0xF0, 0x90, 0x90] ++ [0xE0, 0x90, 0xE0, 0x90, 0xE0] ++
  [0xF0, 0x80, 0x80, 0x80, 0xF0] ++ [0xE0, 0x90, 0x90, 0x90, 0xE0] ++
  [0xF0, 0x80, 0xF0, 0x80, 0xF0] ++ [0xF0, 0x80, 0xF0, 0x80, 0x80]

/-- What a cell holds after reset: the font, then zeros (R35, R40). This is what an unlisted address reads as. -/
def resetByte (a : Nat) : Byte := (fontTable[a]?).getD 0

/-- One byte of memory. Callers check the bound first (R52), so an address of 4096 or more is never read here. -/
def readByte : Memory → Nat → Byte
  | [], a => resetByte a
  | (k, b) :: rest, a => if k = a then b else readByte rest a

/-- Put a cell in its place by address. -/
def insertCell (c : Host.Cell) : Memory → Memory
  | [] => [c]
  | d :: rest => if c.1 < d.1 then c :: d :: rest else d :: insertCell c rest

/-- Write one byte, keeping the canonical form: a cell that holds its reset contents is not listed. -/
def writeByte (m : Memory) (a : Nat) (b : Byte) : Memory :=
  let others := m.filter fun c => c.1 != a
  if b = resetByte a then others else insertCell (a, b) others

/-- `MemRead(a, n)`: `n` bytes from `a` on (R11). -/
def readBytes (m : Memory) (a : Nat) : Nat → List Byte
  | 0 => []
  | n + 1 => readByte m a :: readBytes m (a + 1) n

/-- `MemWrite(a, n, bs)`: the bytes `bs` from `a` on (R11). -/
def writeBytes (m : Memory) (a : Nat) : List Byte → Memory
  | [] => m
  | b :: bs => writeBytes (writeByte m a b) (a + 1) bs

/-- The canonical form: strictly rising addresses inside the 4096 bytes (R50), no cell that holds its reset contents. -/
abbrev Memory.wf (m : Memory) : Prop :=
  m.Pairwise (fun c d => c.1 < d.1) ∧ ∀ c ∈ m, c.1 < Config.memSize ∧ c.2 ≠ resetByte c.1

/-! ## Registers (R10, R21) -/

/-- `V[x]`. -/
def State.getV (s : State) (x : Nibble) : Byte := s.regs[x.toNat]'x.isLt

/-- `V[x] <- b`. -/
def State.setV (s : State) (x : Nibble) (b : Byte) : State := { s with regs := s.regs.set x.toNat b x.isLt }

/-- `V[k], V[k+1], ... <- bs`, inside the sixteen registers (R175). -/
def setRegsFrom (regs : Vector Byte 16) (k : Nat) : List Byte → Vector Byte 16
  | [] => regs
  | b :: bs => setRegsFrom (regs.setIfInBounds k b) (k + 1) bs

/-! ## Control (R102, R120-R128) -/

/-- The advance after a fetch (R102). -/
def State.advance (s : State) : State := { s with pc := s.pc + 2 }

/-- The address of the instruction being executed: `pc` already holds that address plus 2 (R102). -/
def State.ownAddress (s : State) : Word := s.pc - 2

/-- `pc <- target`. -/
def State.jumpTo (s : State) (target : Word) : State := { s with pc := target }

/-- A taken skip adds a further 2 to the advanced `pc` (R102, R124), so one at 0xFFC lands at 4096. DEDUCED from the pseudocode: R124's
corner case says 4098 there (log 18). -/
def State.skipIf (s : State) (taken : Bool) : State := { s with pc := if taken then s.pc + 2 else s.pc }

/-- The rewind of a waiting Fx0A (R102, R215). -/
def State.rewind (s : State) : State := { s with pc := s.ownAddress }

/-- `push(stack, a)` appends (R10). -/
def State.push (s : State) (a : Word) : State := { s with stack := s.stack ++ [a] }

/-- `pop(stack)`: the last element and the state without it (R10); none when the stack is empty. -/
def State.pop? (s : State) : Option (Word × State) :=
  match s.stack.getLast? with
  | none => none
  | some a => some (a, { s with stack := s.stack.dropLast })

/-! ## Faults (R104, R230, R237) -/

/-- `raise`: the record is written with the failing instruction's address, which is where `pc` then stands; nothing else of the
state before that instruction changes (R104, R230, R237). -/
def raise (s : State) (addr : Word) (kind : FaultKind) (opcode : Option Word) (info : Option Nat) : State :=
  { s with pc := addr, fault := some { kind := kind, pc := addr, opcode := opcode, info := info } }

/-- A fault of the instruction `i`, raised after the advance of R102: its address is `pc - 2` and its word is the one fetched. -/
def raiseIn (s : State) (i : Instr) (kind : FaultKind) (info : Option Nat) : State :=
  raise s s.ownAddress kind (some (encode i)) info

/-! ## Fetch (R53, R54, R101) -/

/-- The word at address `a`, high byte first (R54). -/
def wordAt (m : Memory) (a : Nat) : Word := wordOfBytes (readByte m a) (readByte m (a + 1))

/-- Whether both bytes of a fetch at `pc` exist (R53). -/
def State.fetchInBounds (s : State) : Bool := s.pc.toNat ≤ Config.lastFetchAddr

/-- `Fetch(pc)` inside the bounds (R101). -/
def State.fetchWord (s : State) : Word := wordAt s.mem s.pc.toNat

/-- The fault of a fetch past 4094: `pc` is not advanced and there is no opcode (R101, R230, D24). -/
def State.raiseFetch (s : State) : State := raise s s.pc .memoryOutOfBounds none (some (s.pc.toNat + 1))

/-! ## Display (R30) -/

/-- The display with every pixel off (R190). -/
def blankDisplay : Display := Vector.replicate 32 (Vector.replicate 64 false)

/-- `disp[row][col]`. -/
def pixel (d : Display) (row : Fin 32) (col : Fin 64) : Bool := (d.get row).get col

/-- `disp[row][col] <- on`. -/
def setPixel (d : Display) (row : Fin 32) (col : Fin 64) (on : Bool) : Display :=
  d.set row ((d.get row).set col on col.isLt) row.isLt

/-! ## Keys (R29, R215) -/

/-- `key[k]`. -/
def State.key (s : State) (k : Fin 16) : Bool := s.keys.get k

/-- The lowest-indexed pressed key (R215). -/
def State.lowestKey (s : State) : Option Nat := s.keys.toList.findIdx? fun pressed => pressed

/-! ## The random source (R12, R154) -/

/-- `draw RNG()`: a free byte, a fresh one for each draw (D17, log 1). -/
def State.draw (s : State) : Byte × State := (Config.rng s.rngDraws, { s with rngDraws := s.rngDraws + 1 })

/-! ## Timers and the frame (R106-R109, R240) -/

/-- A timer's decrement: by 1 if nonzero, never below 0 (R240). -/
def tickByte (t : Byte) : Byte := if t = 0 then 0 else t - 1

/-- `TimerTick()` (R240). -/
def State.timerTick (s : State) : State := { s with dt := tickByte s.dt, st := tickByte s.st }

/-- The batch size `floor(CLOCK_SPEED / 60)` (R108). -/
def State.batchSize (s : State) : Nat := s.clockSpeed / Config.frameRate

/-- The halt condition `pc > 4094` (R107). -/
def State.halted (s : State) : Bool := Config.lastFetchAddr < s.pc.toNat

/-- The frame's batch is over: all its instructions have run, or the machine is halted (R106, R107). -/
def State.batchDone (s : State) : Bool := s.batchSize ≤ s.slot || s.halted

/-- The end of a frame: the timers tick, and the next frame's batch begins (R106, R109). -/
def State.endFrame (s : State) : State := { s.timerTick with slot := 0 }

/-- One instruction of the batch is counted (R108); a fault ends the frame at once, with no tick (R110). -/
def State.countSlot (s : State) : State :=
  match s.fault with
  | some _ => { s with slot := 0 }
  | none => { s with slot := s.slot + 1 }

end Sys2Proof.Machine
end

