-- ==== Sys2Proof/Machine/Flags.lean ====
section
/-! DEFINITION. Machine/Flags.lean: the conditions that VF reports and the order in which flag and result are written (spec/42_alu.md R140, R141, R148-R152). -/

namespace Sys2Proof.Machine

/-- VF, the only flag (R22). -/
abbrev regVF : Nibble := 0xF#4

/-- A flag's value: 1 or 0. -/
def flagByte (f : Bool) : Byte := if f then 1 else 0

/-- Carry: the unclamped sum exceeds 255 (R148). -/
def carryOut (a b : Byte) : Bool := 255 < a.toNat + b.toNat

/-- NOT borrow: the minuend is at least the subtrahend (R149, R151). -/
def noBorrow (minuend subtrahend : Byte) : Bool := subtrahend.toNat ≤ minuend.toNat

/-- The bit shifted out by a shift right: bit 0 (R150). -/
def lowBit (a : Byte) : Bool := a.getLsbD 0

/-- The bit shifted out by a shift left: bit 7 (R152). -/
def highBit (a : Byte) : Bool := a.getLsbD 7

/-- `VF_WRITE_ORDER`, as the spec decides it (R141, D4, log 4). -/
def vfWriteOrder : Config.VfWriteOrder := .flagThenResult

/-- The two writes of a flag-setting instruction, in the given order (R141, D4). -/
def writeFlagAndResult (order : Config.VfWriteOrder) (s : State) (x : Nibble) (flag : Bool) (result : Byte) : State :=
  match order with
  | .flagThenResult => (s.setV regVF (flagByte flag)).setV x result
  | .resultThenFlag => (s.setV x result).setV regVF (flagByte flag)

/-- The two writes in this machine's order (R141, log 4). -/
def State.setFlagAndV (s : State) (x : Nibble) (flag : Bool) (result : Byte) : State :=
  writeFlagAndResult vfWriteOrder s x flag result

end Sys2Proof.Machine
end

