-- ==== Sys2Proof/Machine/Alu.lean ====
section
/-! DEFINITION. Machine/Alu.lean: register arithmetic and logic, spec/42_alu.md R142-R154. Operands are read from the state the meaning is given, before any write (R13). -/

namespace Sys2Proof.Machine

/-- LD Vx, byte (R142). -/
def execLdByte (x : Nibble) (kk : Byte) (s : State) : Host.Outcome State Fault Refusal := .next (s.setV x kk)

/-- ADD Vx, byte (R143): modulo 256, no flag (D5). -/
def execAddByte (x : Nibble) (kk : Byte) (s : State) : Host.Outcome State Fault Refusal := .next (s.setV x (s.getV x + kk))

/-- LD Vx, Vy (R144). -/
def execLdReg (x y : Nibble) (s : State) : Host.Outcome State Fault Refusal := .next (s.setV x (s.getV y))

/-- OR Vx, Vy (R145): no flag (D5). -/
def execOrReg (x y : Nibble) (s : State) : Host.Outcome State Fault Refusal := .next (s.setV x (s.getV x ||| s.getV y))

/-- AND Vx, Vy (R146): no flag (D5). -/
def execAndReg (x y : Nibble) (s : State) : Host.Outcome State Fault Refusal := .next (s.setV x (s.getV x &&& s.getV y))

/-- XOR Vx, Vy (R147): no flag (D5). -/
def execXorReg (x y : Nibble) (s : State) : Host.Outcome State Fault Refusal := .next (s.setV x (s.getV x ^^^ s.getV y))

/-- ADD Vx, Vy (R148): VF is the carry. -/
def execAddReg (x y : Nibble) (s : State) : Host.Outcome State Fault Refusal :=
  .next (s.setFlagAndV x (carryOut (s.getV x) (s.getV y)) (s.getV x + s.getV y))

/-- SUB Vx, Vy (R149): VF is NOT borrow of `Vx - Vy`. -/
def execSubReg (x y : Nibble) (s : State) : Host.Outcome State Fault Refusal :=
  .next (s.setFlagAndV x (noBorrow (s.getV x) (s.getV y)) (s.getV x - s.getV y))

/-- SHR Vx (R150): VF is the bit shifted out; Vy is not read. -/
def execShr (x _y : Nibble) (s : State) : Host.Outcome State Fault Refusal :=
  .next (s.setFlagAndV x (lowBit (s.getV x)) (s.getV x >>> 1))

/-- SUBN Vx, Vy (R151): VF is NOT borrow of `Vy - Vx`. -/
def execSubnReg (x y : Nibble) (s : State) : Host.Outcome State Fault Refusal :=
  .next (s.setFlagAndV x (noBorrow (s.getV y) (s.getV x)) (s.getV y - s.getV x))

/-- SHL Vx (R152): VF is the bit shifted out; Vy is not read. -/
def execShl (x _y : Nibble) (s : State) : Host.Outcome State Fault Refusal :=
  .next (s.setFlagAndV x (highBit (s.getV x)) (s.getV x <<< 1))

/-- RND Vx, byte (R154): a free byte masked by the immediate (log 1). -/
def execRnd (x : Nibble) (kk : Byte) (s : State) : Host.Outcome State Fault Refusal :=
  let (r, t) := s.draw
  .next (t.setV x (r &&& kk))

end Sys2Proof.Machine
end

