-- ==== Sys2Proof/Machine/Operands.lean ====
section
/-! DEFINITION. Machine/Operands.lean: the effective addresses of spec/43_index_memory.md R176 and the bounds check of spec/20_memory.md R52. -/

namespace Sys2Proof.Machine

/-- The base address `I` of a data access (R176). -/
def State.base (s : State) : Nat := s.regI.toNat

/-- The highest address of an access to `count` bytes at `I` (R52, R232). -/
def State.lastAddress (s : State) (count : Nat) : Nat := s.base + count - 1

/-- Whether all of `count` bytes at `I` exist; an access to no byte is always in bounds (R52, R191). -/
def State.accessInBounds (s : State) (count : Nat) : Bool := count == 0 || s.lastAddress count < Config.memSize

/-- A data access by the instruction `i` to `count` bytes at `I`: the whole range is checked before any byte moves, and an access that
fails raises `MemoryOutOfBounds` with the highest address (R52, R232). -/
def checkedAccess (i : Instr) (count : Nat) (s : State) (act : State → State) : Host.Outcome State Fault Refusal :=
  if s.accessInBounds count then .next (act s)
  else .next (raiseIn s i .memoryOutOfBounds (some (s.lastAddress count)))

/-- The jump target `nnn + V0`: a 16-bit sum, not masked to 12 bits (R123, D6). -/
def State.offsetTarget (s : State) (nnn : Addr) : Word := nnn.setWidth 16 + (s.getV 0).setWidth 16

end Sys2Proof.Machine
end

