-- ==== Sys2Proof/Machine/Control.lean ====
section
/-! DEFINITION. Machine/Control.lean: control transfer, spec/41_control.md R120-R128. In each meaning `pc` already holds the instruction's address plus 2 (R102). -/

namespace Sys2Proof.Machine

/-- RET (R120): the popped address is used as it is; an empty stack is fatal (R231). -/
def execRet (s : State) : Host.Outcome State Fault Refusal :=
  match s.pop? with
  | none => .next (raiseIn s .ret .stackUnderflow none)
  | some (a, t) => .next (t.jumpTo a)

/-- JP addr (R121). -/
def execJp (nnn : Addr) (s : State) : Host.Outcome State Fault Refusal := .next (s.jumpTo (nnn.setWidth 16))

/-- CALL addr (R122): the advanced `pc` is pushed. -/
def execCall (nnn : Addr) (s : State) : Host.Outcome State Fault Refusal := .next ((s.push s.pc).jumpTo (nnn.setWidth 16))

/-- JP V0, addr (R123): V0 alone is the offset (D22). -/
def execJpV0 (nnn : Addr) (s : State) : Host.Outcome State Fault Refusal := .next (s.jumpTo (s.offsetTarget nnn))

/-- SE Vx, byte (R124). -/
def execSeByte (x : Nibble) (kk : Byte) (s : State) : Host.Outcome State Fault Refusal := .next (s.skipIf (s.getV x == kk))

/-- SNE Vx, byte (R125). -/
def execSneByte (x : Nibble) (kk : Byte) (s : State) : Host.Outcome State Fault Refusal := .next (s.skipIf (s.getV x != kk))

/-- SE Vx, Vy (R126): `op[3:0]` is ignored (D3). -/
def execSeReg (x y _z : Nibble) (s : State) : Host.Outcome State Fault Refusal := .next (s.skipIf (s.getV x == s.getV y))

/-- SNE Vx, Vy (R127): `op[3:0]` is ignored (D3). -/
def execSneReg (x y _z : Nibble) (s : State) : Host.Outcome State Fault Refusal := .next (s.skipIf (s.getV x != s.getV y))

/-- The no-op of every unrecognised word (R80, R128): only the advance of R102 has happened. -/
def execNoOp (_w : Word) (s : State) : Host.Outcome State Fault Refusal := .next s

end Sys2Proof.Machine
end

