-- ==== Sys2Proof/Machine/Display.lean ====
section
/-! DEFINITION. Machine/Display.lean: the display compositor and the two display instructions, spec/44_display.md R190-R193. -/

namespace Sys2Proof.Machine

/-- CLS (R190). -/
def execCls (s : State) : Host.Outcome State Fault Refusal := .next { s with disp := blankDisplay }

/-- Row `y + r` of the display, modulo 32 (R191, R192). -/
def wrapRow (y r : Nat) : Fin 32 := ⟨(y + r) % 32, Nat.mod_lt _ (by decide)⟩

/-- Column `x + b` of the display, modulo 64 (R191, R192). -/
def wrapCol (x b : Nat) : Fin 64 := ⟨(x + b) % 64, Nat.mod_lt _ (by decide)⟩

/-- What the compositor works on: the display and the collision flag. -/
structure Canvas where
  disp : Display
  collision : Bool
  deriving DecidableEq, Repr

/-- A 1 bit toggles its pixel; a pixel that was on sets the collision flag (R191, R192). -/
def toggle (row : Fin 32) (col : Fin 64) (c : Canvas) : Canvas :=
  { disp := setPixel c.disp row col (!pixel c.disp row col), collision := c.collision || pixel c.disp row col }

/-- One row of a sprite: bit 7 at column `x`, bit 0 at column `x + 7` (R191, R192, D14). The list holds the bit numbers `b` still to draw. -/
def drawBits (row : Fin 32) (x : Nat) (byte : Byte) : List Nat → Canvas → Canvas
  | [], c => c
  | b :: bs, c => drawBits row x byte bs (if byte.getLsbD (7 - b) then toggle row (wrapCol x b) c else c)

/-- The rows of a sprite from row `r` on, one byte each (R191). -/
def drawRows (x y : Nat) : Nat → List Byte → Canvas → Canvas
  | _, [], c => c
  | r, byte :: rest, c => drawRows x y (r + 1) rest (drawBits (wrapRow y r) x byte (List.range 8) c)

/-- `draw_sprite` on bytes already read (R191): the new display and the collision flag. -/
def drawSprite (d : Display) (rows : List Byte) (x y : Nat) : Canvas := drawRows x y 0 rows { disp := d, collision := false }

/-- DRW Vx, Vy, nibble (R193): VF is written on every draw; a height of 0 draws nothing (D15). -/
def execDrw (x y n : Nibble) (s : State) : Host.Outcome State Fault Refusal :=
  checkedAccess (.drw x y n) n.toNat s fun t =>
    let c := drawSprite t.disp (readBytes t.mem t.base n.toNat) (t.getV x).toNat (t.getV y).toNat
    { t with disp := c.disp }.setV regVF (flagByte c.collision)

end Sys2Proof.Machine
end

