-- ==== Sys2Proof/Machine/IndexMemory.lean ====
section
/-! DEFINITION. Machine/IndexMemory.lean: the index register and the memory instructions, spec/43_index_memory.md R170-R175. -/

namespace Sys2Proof.Machine

/-- LD I, addr (R170). -/
def execLdI (nnn : Addr) (s : State) : Host.Outcome State Fault Refusal := .next { s with regI := nnn.setWidth 16 }

/-- ADD I, Vx (R171): modulo 4096, no flag (D5). -/
def execAddI (x : Nibble) (s : State) : Host.Outcome State Fault Refusal :=
  .next { s with regI := BitVec.ofNat 16 ((s.regI.toNat + (s.getV x).toNat) % 4096) }

/-- LD F, Vx (R172): the glyph of a digit, not masked to a nibble (D12, log 8). -/
def execLdF (x : Nibble) (s : State) : Host.Outcome State Fault Refusal :=
  .next { s with regI := BitVec.ofNat 16 (5 * (s.getV x).toNat) }

/-- The three decimal digits of a byte, hundreds first (R173, D29). -/
def bcdDigits (v : Byte) : List Byte := [v / 100, v / 10 % 10, v % 10]

/-- LD B, Vx (R173). -/
def execLdB (x : Nibble) (s : State) : Host.Outcome State Fault Refusal :=
  checkedAccess (.ldB x) 3 s fun t => { t with mem := writeBytes t.mem t.base (bcdDigits (t.getV x)) }

/-- LD [I], Vx (R174): the range V0..Vx is inclusive, and `I` is unchanged (D16). -/
def execLdMemVx (x : Nibble) (s : State) : Host.Outcome State Fault Refusal :=
  checkedAccess (.ldMemVx x) (x.toNat + 1) s fun t =>
    { t with mem := writeBytes t.mem t.base (t.regs.toList.take (x.toNat + 1)) }

/-- LD Vx, [I] (R175): the range V0..Vx is inclusive, and `I` is unchanged (D16). -/
def execLdVxMem (x : Nibble) (s : State) : Host.Outcome State Fault Refusal :=
  checkedAccess (.ldVxMem x) (x.toNat + 1) s fun t =>
    { t with regs := setRegsFrom t.regs 0 (readBytes t.mem t.base (x.toNat + 1)) }

end Sys2Proof.Machine
end

