-- ==== Sys2Proof/Machine/TimersKeys.lean ====
section
/-! DEFINITION. Machine/TimersKeys.lean: the timer and key instructions, spec/45_timers_input.md R210-R215. -/

namespace Sys2Proof.Machine

/-- LD Vx, DT (R210). -/
def execLdVxDt (x : Nibble) (s : State) : Host.Outcome State Fault Refusal := .next (s.setV x s.dt)

/-- LD DT, Vx (R211). -/
def execLdDtVx (x : Nibble) (s : State) : Host.Outcome State Fault Refusal := .next { s with dt := s.getV x }

/-- LD ST, Vx (R212). -/
def execLdStVx (x : Nibble) (s : State) : Host.Outcome State Fault Refusal := .next { s with st := s.getV x }

/-- A key skip by the instruction `i` on the key numbered `v`, taken when its latch is `wanted`; above 15 it raises
`KeyIndexOutOfRange` with the value (R213, R214, R233). -/
def keySkip (i : Instr) (v : Byte) (wanted : Bool) (s : State) : Host.Outcome State Fault Refusal :=
  if h : v.toNat < 16 then .next (s.skipIf (s.key ⟨v.toNat, h⟩ == wanted))
  else .next (raiseIn s i .keyIndexOutOfRange (some v.toNat))

/-- SKP Vx (R213). -/
def execSkp (x : Nibble) (s : State) : Host.Outcome State Fault Refusal := keySkip (.skp x) (s.getV x) true s

/-- SKNP Vx (R214). -/
def execSknp (x : Nibble) (s : State) : Host.Outcome State Fault Refusal := keySkip (.sknp x) (s.getV x) false s

/-- LD Vx, K (R215): with a key pressed, the lowest one; with none, the instruction is rewound and runs again. -/
def execLdVxK (x : Nibble) (s : State) : Host.Outcome State Fault Refusal :=
  match s.lowestKey with
  | some k => .next ({ s with waiting := false }.setV x (BitVec.ofNat 8 k))
  | none => .next ({ s with waiting := true }.rewind)

end Sys2Proof.Machine
end

