-- ==== Sys2Proof/Machine/Cycle.lean ====
section
/-! DEFINITION. Machine/Cycle.lean: one instruction (`execute_one`, spec/40_cycle.md R100-R105), one frame (`run_frame`, R106-R110), and one move of the scheduler. -/

namespace Sys2Proof.Machine

/-- `execute_one()` (R100): a faulted machine does not change (R105); a fetch past 4094 faults (R101); otherwise `pc` is advanced
(R102) and the decoded instruction is executed (R103). -/
def executeOne (s : State) : Host.Outcome State Fault Refusal :=
  match s.fault with
  | some _ => .next s
  | none => if s.fetchInBounds then exec (decodeWord s.fetchWord) s.advance else .next s.raiseFetch

/-- The batch of a frame: at most `k` instructions, ended early by the halt (R107) and by a fault (R110). -/
def runBatch : Nat → State → Host.Outcome State Fault Refusal
  | 0, s => .next s
  | k + 1, s =>
    if s.halted then .next s
    else
      match executeOne s with
      | .next t => if t.fault.isSome then .next t else runBatch k t
      | .fault r => .fault r
      | .refused r => .refused r

/-- `run_frame()` (R106): a faulted machine does nothing, a fault in the batch suppresses the tick (R110), and otherwise the timers
tick once (R109). -/
def runFrame (s : State) : Host.Outcome State Fault Refusal :=
  match s.fault with
  | some _ => .next s
  | none =>
    match runBatch s.batchSize s with
    | .next t => if t.fault.isSome then .next t else .next t.timerTick
    | .fault r => .fault r
    | .refused r => .refused r

/-- One move of the scheduler, the unit `step` takes: a stopped machine does not move (R105, R234); a frame whose batch is over ends
with the tick (R106, R107, R109); otherwise one instruction of the batch runs and is counted (R108). Frames follow one another (log 2). -/
def schedulerMove (s : State) : Host.Outcome State Fault Refusal :=
  match s.fault with
  | some r => .fault (.stopped r)
  | none =>
    if s.batchDone then .next s.endFrame
    else
      match executeOne s with
      | .next t => .next t.countSlot
      | .fault r => .fault r
      | .refused r => .refused r

/-- `s` made ready to run an instruction at the next step: not stopped, not halted, and with a slot of its frame's batch left. Each
field changes only where it must (log 14). -/
def State.readyToFetch (s : State) : State :=
  let speed := if s.batchSize = 0 then Config.defaultClockSpeed else s.clockSpeed
  { s with
    fault := none
    pc := if s.halted then BitVec.ofNat 16 Config.pcStart else s.pc
    clockSpeed := speed
    slot := if s.slot < speed / Config.frameRate then s.slot else 0 }

/-- The bytes of `w` at `pc` (R54). -/
def State.placeWord (s : State) (w : Word) : State := { s with mem := writeBytes s.mem s.pc.toNat (bytesOfWord w) }

end Sys2Proof.Machine
end

