-- ==== Sys2Proof/Machine/Step.lean ====
section
/-! DEFINITION. Machine/Step.lean: the machine's step, one move of the scheduler of spec/40_cycle.md R106, and the host's way to place an instruction. -/

namespace Sys2Proof.Machine

/-- One step of the block: one instruction of the frame's batch, or the frame's end (R100, R106). -/
def step (s : State) : Host.Outcome State Fault Refusal := schedulerMove s

/-- `s` with the instruction of the opcode table's word `w` where the next step fetches and runs it (log 14). -/
def State.withFetchWord (s : State) (nbits w : Nat) : State := s.readyToFetch.placeWord (tableWord nbits w)

end Sys2Proof.Machine
end

