-- ==== Sys2Proof/Machine/HostOps.lean ====
section
/-! DEFINITION. Machine/HostOps.lean: the operations by which the host reaches the core, spec/60_exceptions.md R246-R251 and spec/70_reset_and_hazards.md R260, R261. -/

namespace Sys2Proof.Machine

/-- `load_program(bytes)` (R261): the new state, or none when the program does not fit; then memory does not change (D18). -/
def loadProgram (bytes : List Byte) (s : State) : Option State :=
  if Config.programBase + bytes.length ≤ Config.memSize then
    some { s with mem := writeBytes s.mem Config.programBase bytes }
  else none

/-- `set_key(index, pressed)` (R248): a press clears `waiting` (D19). The index has 4 bits: the host has no other move (R247). -/
def setKey (k : Nibble) (pressed : Bool) (s : State) : State :=
  { s with
    keys := s.keys.set k.toNat pressed k.isLt
    waiting := if pressed then false else s.waiting }

/-- The four bytes of a pixel in the packed buffer (R31): an off pixel is zeros. -/
def packPixel (pixelOn : Vector Byte 4) (on : Bool) : List Byte := if on then pixelOn.toList else [0, 0, 0, 0]

/-- The packed image of the display (R31): row-major, 4 bytes a pixel, for a given value of the parameter `PIXEL_ON`. -/
def packDisplay (pixelOn : Vector Byte 4) (d : Display) : List Byte :=
  d.toList.flatMap fun row => row.toList.flatMap (packPixel pixelOn)

/-- `read_display()` (R249). -/
def readDisplay (s : State) : List Byte := packDisplay Config.pixelOn s.disp

/-- The sound output: the predicate `ST ≠ 0` (R250, D23). -/
def toneOn (s : State) : Bool := s.st != 0

/-- A new machine (R260): every element at its value of R40. The model's count of draws goes on, so that a new machine's draws are fresh
ones (log 1). -/
def newMachine (clockSpeed : Nat) (s : State) : State := { State.afterReset clockSpeed with rngDraws := s.rngDraws }

/-- The host's calls (R246). -/
inductive HostCall where
  | newMachine (clockSpeed : Nat)
  | loadProgram (bytes : List Byte)
  | runFrame
  | setKey (k : Nibble) (pressed : Bool)
  | readDisplay
  | readSound
  | executeOne
  deriving DecidableEq, Repr

/-- What the host gets back (R246). -/
inductive HostReply where
  | nothing
  | loaded (ok : Bool)
  | faultRaised (r : Option FaultRecord)
  | display (bytes : List Byte)
  | tone (on : Bool)
  deriving DecidableEq, Repr

/-- The reply of an operation that runs instructions: the fault, if one was raised (R246). -/
def withFault (o : Host.Outcome State Fault Refusal) : Host.Outcome (State × HostReply) Fault Refusal :=
  match o with
  | .next t => .next (t, .faultRaised t.fault)
  | .fault r => .fault r
  | .refused r => .refused r

/-- One host call between frames (R246). During a frame the host has no move (R247); on a stopped machine nothing changes but by a new
machine (R234), and a load fails (log 13). -/
def hostCall (c : HostCall) (s : State) : Host.Outcome (State × HostReply) Fault Refusal :=
  if s.slot ≠ 0 then .refused .hostCallDuringFrame
  else
    match c with
    | .newMachine n => if n = 0 then .refused .clockSpeedNotPositive else .next (newMachine n s, .nothing)
    | .loadProgram bytes =>
      if s.fault.isSome then .next (s, .loaded false)
      else
        match loadProgram bytes s with
        | some t => .next (t, .loaded true)
        | none => .next (s, .loaded false)
    | .runFrame => withFault (runFrame s)
    | .setKey k pressed => if s.fault.isSome then .next (s, .nothing) else .next (setKey k pressed s, .nothing)
    | .readDisplay => .next (s, .display (readDisplay s))
    | .readSound => .next (s, .tone (toneOn s))
    | .executeOne => withFault (executeOne s)

end Sys2Proof.Machine
end

