-- ==== Sys2Proof/Safety.lean ====
section
/-! DEFINITION. Safety.lean: what the statements are written in: frames, the machine's invariant, the final states of spec/40_cycle.md R111, and the runs the spec allows. -/

namespace Sys2Proof.Machine

/-! ## Frames -/

/-- The parts of the state other than the V registers. -/
inductive Part where
  | mem | index | pc | stack | delay | sound | keys | display | waiting | fault | clock | draws | slot
  deriving DecidableEq, Repr

/-- A part is the same in two states; memory is compared byte by byte, by reading it. -/
def Part.Same (s t : State) : Part → Prop
  | .mem => ∀ a, readByte t.mem a = readByte s.mem a
  | .index => t.regI = s.regI
  | .pc => t.pc = s.pc
  | .stack => t.stack = s.stack
  | .delay => t.dt = s.dt
  | .sound => t.st = s.st
  | .keys => ∀ k, t.key k = s.key k
  | .display => ∀ r c, pixel t.disp r c = pixel s.disp r c
  | .waiting => t.waiting = s.waiting
  | .fault => t.fault = s.fault
  | .clock => t.clockSpeed = s.clockSpeed
  | .draws => t.rngDraws = s.rngDraws
  | .slot => t.slot = s.slot

/-- From `s` to `t`, only the registers `ds` and the parts `ps` may have changed. -/
def ChangesOnly (ds : List Nibble) (ps : List Part) (s t : State) : Prop :=
  (∀ r, r ∉ ds → t.getV r = s.getV r) ∧ ∀ p, p ∉ ps → p.Same s t

/-- From `s` to `t`, a fault was raised and nothing else: `pc` is back at the failing instruction, and the record is written (R104,
R230). `s` is the state after the advance of R102. -/
def Raised (s t : State) (kind : FaultKind) (opcode : Word) (info : Option Nat) : Prop :=
  t.pc = s.pc - 2 ∧ t.fault = some { kind := kind, pc := s.pc - 2, opcode := some opcode, info := info } ∧
    ChangesOnly [] [.pc, .fault] s t

/-! ## Sprites, as the compositor's rules state them (R191, R192) -/

/-- The sprite of `rows` drawn at `(x, y)` has a 1 bit that lands on pixel `(row, col)`: bit `7 - b` of row `r` lands on row
`(y + r) mod 32` and column `(x + b) mod 64`. -/
def SpriteHits (rows : List Byte) (x y : Nat) (row : Fin 32) (col : Fin 64) : Prop :=
  ∃ r b : Nat, ∃ byte : Byte, rows[r]? = some byte ∧ b < 8 ∧ byte.getLsbD (7 - b) = true ∧
    row.val = (y + r) % 32 ∧ col.val = (x + b) % 64

/-! ## Faults, as the rules state their conditions (R231-R233) -/

/-- The fault an instruction raises in a state, if it raises one: its kind and `info`. -/
def expectedFault (i : Instr) (s : State) : Option (FaultKind × Option Nat) :=
  match i with
  | .ret => if s.stack = [] then some (.stackUnderflow, none) else none
  | .drw _ _ n =>
    if 0 < n.toNat ∧ 4096 ≤ s.regI.toNat + n.toNat - 1 then
      some (.memoryOutOfBounds, some (s.regI.toNat + n.toNat - 1)) else none
  | .ldB _ => if 4096 ≤ s.regI.toNat + 2 then some (.memoryOutOfBounds, some (s.regI.toNat + 2)) else none
  | .ldMemVx x | .ldVxMem x =>
    if 4096 ≤ s.regI.toNat + x.toNat then some (.memoryOutOfBounds, some (s.regI.toNat + x.toNat)) else none
  | .skp x | .sknp x =>
    if 15 < (s.getV x).toNat then some (.keyIndexOutOfRange, some (s.getV x).toNat) else none
  | _ => none

/-! ## The end of a run (R111) -/

/-- Stopped: a fault is recorded. -/
def Stopped (s : State) : Prop := s.fault ≠ none

/-- Halted: no fault, and `pc` past the last instruction-start address. -/
def Halted (s : State) : Prop := s.fault = none ∧ 4094 < s.pc.toNat

/-- An instruction runs at the next step: no fault, no halt, and a slot of the frame's batch is left (R106, R107, R110). -/
def Running (s : State) : Prop := s.fault = none ∧ s.pc.toNat ≤ 4094 ∧ s.slot < s.clockSpeed / 60

/-! ## The invariant -/

/-- What a fault record says of its kind (R231-R233). -/
def FaultRecord.Sound (r : FaultRecord) : Prop :=
  match r.kind with
  | .stackUnderflow => r.opcode = some 0x00EE ∧ r.info = none
  | .memoryOutOfBounds => (∃ a, r.info = some a ∧ 4096 ≤ a) ∧ (r.opcode = none → r.info = some (r.pc.toNat + 1))
  | .keyIndexOutOfRange => r.opcode ≠ none ∧ ∃ v, r.info = some v ∧ 15 < v ∧ v ≤ 255

/-- The invariant of the machine: memory is canonical, `I` stays below 4096 (R23), `pc` and the return addresses stay in their ranges
(R24, R120), the clock speed is positive (R34), the batch's counter stays within the batch, and a fault record is sound and names the
instruction at which the machine stands (R230). -/
structure Inv (s : State) : Prop where
  memCanonical : Memory.wf s.mem
  indexRange : s.regI.toNat < 4096
  pcRange : s.pc.toNat ≤ 4350
  stackRange : ∀ a ∈ s.stack, a.toNat ≤ 4096
  clockPositive : 0 < s.clockSpeed
  slotRange : s.slot ≤ s.batchSize
  faultSound : ∀ r, s.fault = some r → s.slot = 0 ∧ r.pc = s.pc ∧ r.Sound

/-! ## Runs (R111) -/

/-- The states a run can reach: from a new machine, by steps and by host calls between frames. -/
inductive Reachable : State → Prop where
  | reset (n : Nat) : 0 < n → Reachable (State.afterReset n)
  | step {s t : State} : Reachable s → step s = .next t → Reachable t
  | host {s t : State} {c : HostCall} {r : HostReply} : Reachable s → hostCall c s = .next (t, r) → Reachable t

end Sys2Proof.Machine
end

