-- ==== Sys2Proof/Certificates/Slice0/Obligations.lean ====
section
/-! DEFINITION. Certificates/Slice0/Obligations.lean: the statements about the machine, from the numbered rules of spec/. In every statement about `exec`, the state `s` is the one after the advance of R102, so `s.pc` is the instruction's address plus 2. -/

open Sys2Proof Sys2Proof.Machine

/-! ## Control transfer (41_control.md) -/

/-- R120: RET pops the top of the stack into `pc` and changes nothing else. -/
def Obligations.RetPopsTheReturnAddress : Prop :=
  ∀ (s : State) (rest : List Word) (a : Word), s.stack = rest ++ [a] →
    ∃ t, exec .ret s = .next t ∧ t.pc = a ∧ t.stack = rest ∧ ChangesOnly [] [.pc, .stack] s t

/-- R231: RET with an empty stack raises `StackUnderflow` with no info, and no other instruction raises it. The record and the machine's
other parts are the spec's decision D9 (log 10); the record's word is the pattern 00EE of its decision D2 (log 9). -/
def Obligations.OnlyRetOnEmptyStackUnderflows : Prop :=
  (∀ s : State, s.stack = [] → ∃ t, exec .ret s = .next t ∧ Raised s t .stackUnderflow 0x00EE none) ∧
  ∀ (i : Instr) (s t : State) (r : FaultRecord), exec i s = .next t → s.fault = none → t.fault = some r →
    r.kind = .stackUnderflow → i = .ret ∧ s.stack = []

/-- R121, R122, R123: JP sets `pc` to `nnn`; CALL also pushes the advanced `pc`; JP V0 sets it to the exact sum `nnn + V0`, unmasked (the
spec's decisions D6, D22, logs 11 and 12). -/
def Obligations.JumpsSetThePc : Prop :=
  ∀ (nnn : Addr) (s : State),
    (∃ t, exec (.jp nnn) s = .next t ∧ t.pc.toNat = nnn.toNat ∧ ChangesOnly [] [.pc] s t) ∧
    (∃ t, exec (.call nnn) s = .next t ∧ t.pc.toNat = nnn.toNat ∧ t.stack = s.stack ++ [s.pc] ∧
      ChangesOnly [] [.pc, .stack] s t) ∧
    (∃ t, exec (.jpV0 nnn) s = .next t ∧ t.pc.toNat = nnn.toNat + (s.getV 0).toNat ∧ ChangesOnly [] [.pc] s t)

/-- R120, R122: a RET that finds the stack a CALL left comes back to the instruction after the CALL, with the stack the CALL found. -/
def Obligations.ReturnUndoesCall : Prop :=
  ∀ (nnn : Addr) (s : State), ∃ t, exec (.call nnn) s = .next t ∧
    ∀ u : State, u.stack = t.stack → ∃ v, exec .ret u = .next v ∧ v.pc = s.pc ∧ v.stack = s.stack

/-- R124-R127: the four register skips add 2 to `pc` exactly when their comparison holds, whatever the ignored bits are (the
spec's decision D3, log 9), and change nothing else. What the four do, the spec supplies from general knowledge (PRESUMED, log 11). A taken
skip at 0xFFC lands at 4096, by R124's pseudocode and V-CTL20; its corner case says 4098 (DEDUCED, log 18). -/
def Obligations.RegisterSkipsCompare : Prop :=
  ∀ (x y z : Nibble) (kk : Byte) (s : State),
    (∃ t, exec (.seByte x kk) s = .next t ∧ (s.getV x = kk → t.pc = s.pc + 2) ∧ (s.getV x ≠ kk → t.pc = s.pc) ∧
      ChangesOnly [] [.pc] s t) ∧
    (∃ t, exec (.sneByte x kk) s = .next t ∧ (s.getV x ≠ kk → t.pc = s.pc + 2) ∧ (s.getV x = kk → t.pc = s.pc) ∧
      ChangesOnly [] [.pc] s t) ∧
    (∃ t, exec (.seReg x y z) s = .next t ∧ (s.getV x = s.getV y → t.pc = s.pc + 2) ∧
      (s.getV x ≠ s.getV y → t.pc = s.pc) ∧ ChangesOnly [] [.pc] s t) ∧
    (∃ t, exec (.sneReg x y z) s = .next t ∧ (s.getV x ≠ s.getV y → t.pc = s.pc + 2) ∧
      (s.getV x = s.getV y → t.pc = s.pc) ∧ ChangesOnly [] [.pc] s t)

/-- R80: the unrecognised words are those of R80's list, and running one adds 2 to `pc`, changes nothing else, raises no fault, and counts as
one of the frame's instructions. -/
def Obligations.UnrecognisedWordsAreNoOps : Prop :=
  ∀ w : Word,
    let unknown : Prop :=
      (w.extractLsb' 12 4 = 0x0#4 ∧ w ≠ 0x00E0 ∧ w ≠ 0x00EE) ∨
      (w.extractLsb' 12 4 = 0x8#4 ∧ w.extractLsb' 0 4 ∈ [0x8#4, 0x9#4, 0xA#4, 0xB#4, 0xC#4, 0xD#4, 0xF#4]) ∨
      (w.extractLsb' 12 4 = 0xE#4 ∧ w.extractLsb' 0 8 ∉ [0x9E#8, 0xA1#8]) ∨
      (w.extractLsb' 12 4 = 0xF#4 ∧
        w.extractLsb' 0 8 ∉ [0x07#8, 0x0A#8, 0x15#8, 0x18#8, 0x1E#8, 0x29#8, 0x33#8, 0x55#8, 0x65#8])
    (decodeWord w = .noOp w ↔ unknown) ∧
    (∀ s : State, exec (.noOp w) s = .next s) ∧
    ∀ s : State, s.fault = none → s.pc.toNat ≤ 4094 → s.fetchWord = w → unknown →
      executeOne s = .next { s with pc := s.pc + 2 } ∧
      ∀ k : Nat, runBatch (k + 1) s = runBatch k { s with pc := s.pc + 2 }

/-! ## Register arithmetic and logic (42_alu.md) -/

/-- R142: every word `0110 xxxx kkkk kkkk` is LD Vx, byte, which writes `kk` to `Vx` and nothing else; `x = F` writes VF. -/
def Obligations.LoadImmediateWritesTheByte : Prop :=
  ∀ (x : Nibble) (kk : Byte) (s : State), decodeWord (0x6#4 ++ x ++ kk) = .ldByte x kk ∧
    ∃ t, exec (.ldByte x kk) s = .next t ∧ t.getV x = kk ∧ ChangesOnly [x] [] s t

/-- R143: ADD Vx, byte adds modulo 256 and writes no flag (the spec's decision D5, log 11). -/
def Obligations.AddImmediateWrapsWithoutFlag : Prop :=
  ∀ (x : Nibble) (kk : Byte) (s : State), ∃ t, exec (.addByte x kk) s = .next t ∧
    (t.getV x).toNat = ((s.getV x).toNat + kk.toNat) % 256 ∧ (x ≠ 0xF#4 → t.getV 0xF#4 = s.getV 0xF#4) ∧
    ChangesOnly [x] [] s t

/-- R144-R147: copy, OR, AND and XOR, bit by bit, with no flag (the spec's decision D5, log 11). -/
def Obligations.LogicActsBitByBit : Prop :=
  ∀ (x y : Nibble) (s : State),
    (∃ t, exec (.ldReg x y) s = .next t ∧ t.getV x = s.getV y ∧ ChangesOnly [x] [] s t) ∧
    (∃ t, exec (.orReg x y) s = .next t ∧
      (∀ b, (t.getV x).getLsbD b = ((s.getV x).getLsbD b || (s.getV y).getLsbD b)) ∧ ChangesOnly [x] [] s t) ∧
    (∃ t, exec (.andReg x y) s = .next t ∧
      (∀ b, (t.getV x).getLsbD b = ((s.getV x).getLsbD b && (s.getV y).getLsbD b)) ∧ ChangesOnly [x] [] s t) ∧
    (∃ t, exec (.xorReg x y) s = .next t ∧
      (∀ b, (t.getV x).getLsbD b = ((s.getV x).getLsbD b ^^ (s.getV y).getLsbD b)) ∧ ChangesOnly [x] [] s t)

/-- R148, R141: ADD Vx, Vy stores the sum modulo 256 and sets VF to 1 iff the unclamped sum exceeds 255, else 0; with `x = F`, VF ends as
the result (the spec's decision D4, log 4). -/
def Obligations.AddWithCarry : Prop :=
  ∀ (x y : Nibble) (s : State), ∃ t, exec (.addReg x y) s = .next t ∧
    (t.getV x).toNat = ((s.getV x).toNat + (s.getV y).toNat) % 256 ∧
    (x ≠ 0xF#4 → t.getV 0xF#4 = if 255 < (s.getV x).toNat + (s.getV y).toNat then 1 else 0) ∧
    ChangesOnly [x, 0xF#4] [] s t

/-- R149, R151, R141: SUB and SUBN store the difference modulo 256 and set VF to 1 iff the minuend is at least the subtrahend, else 0;
with `x = F`, VF ends as the result (the spec's decision D4, log 4). That Vx is the minuend of SUB and Vy that of SUBN, the spec supplies
from general knowledge (PRESUMED, log 11). -/
def Obligations.SubtractWithNotBorrow : Prop :=
  ∀ (x y : Nibble) (s : State),
    (∃ t, exec (.subReg x y) s = .next t ∧
      (t.getV x).toNat = ((s.getV x).toNat + 256 - (s.getV y).toNat) % 256 ∧
      (x ≠ 0xF#4 → t.getV 0xF#4 = if (s.getV y).toNat ≤ (s.getV x).toNat then 1 else 0) ∧ ChangesOnly [x, 0xF#4] [] s t) ∧
    (∃ t, exec (.subnReg x y) s = .next t ∧
      (t.getV x).toNat = ((s.getV y).toNat + 256 - (s.getV x).toNat) % 256 ∧
      (x ≠ 0xF#4 → t.getV 0xF#4 = if (s.getV x).toNat ≤ (s.getV y).toNat then 1 else 0) ∧ ChangesOnly [x, 0xF#4] [] s t)

/-- R150, R152, R141: SHR stores `Vx / 2` and sets VF to bit 0 of `Vx`; SHL stores `2 * Vx` modulo 256 and sets VF to bit 7; Vy is not
read; with `x = F`, VF ends as the result (the spec's decision D4, log 4). -/
def Obligations.ShiftsReportTheBitShiftedOut : Prop :=
  ∀ (x y : Nibble) (s : State),
    (∃ t, exec (.shr x y) s = .next t ∧ (t.getV x).toNat = (s.getV x).toNat / 2 ∧
      (x ≠ 0xF#4 → (t.getV 0xF#4).toNat = (s.getV x).toNat % 2) ∧ ChangesOnly [x, 0xF#4] [] s t) ∧
    (∃ t, exec (.shl x y) s = .next t ∧ (t.getV x).toNat = 2 * (s.getV x).toNat % 256 ∧
      (x ≠ 0xF#4 → (t.getV 0xF#4).toNat = (s.getV x).toNat / 128) ∧ ChangesOnly [x, 0xF#4] [] s t)

/-- R141: with `x ≠ F` the order of the two writes cannot be observed; with `x = F`, `FLAG_THEN_RESULT` leaves the result in VF and
`RESULT_THEN_FLAG` the flag. This machine takes the first, the spec's decision D4 (log 4). -/
def Obligations.FlagOrderShowsOnlyInVF : Prop :=
  (∀ (s : State) (x : Nibble) (f : Bool) (r : Byte), x ≠ 0xF#4 →
    writeFlagAndResult .flagThenResult s x f r = writeFlagAndResult .resultThenFlag s x f r) ∧
  (∀ (s : State) (f : Bool) (r : Byte),
    (writeFlagAndResult .flagThenResult s 0xF#4 f r).getV 0xF#4 = r ∧
    (writeFlagAndResult .resultThenFlag s 0xF#4 f r).getV 0xF#4 = (if f then 1 else 0)) ∧
  ∀ (y : Nibble) (s : State), ∃ t, exec (.addReg 0xF#4 y) s = .next t ∧ t.getV 0xF#4 = s.getV 0xF#4 + s.getV y

/-- R154: RND writes a draw masked by `kk`, and takes a fresh draw each time. The draw is a free value (log 1): nothing rests on which
byte it is. -/
def Obligations.RandomByteIsMasked : Prop :=
  ∀ (x : Nibble) (kk : Byte) (s : State), ∃ t, exec (.rnd x kk) s = .next t ∧
    t.getV x = Config.rng s.rngDraws &&& kk ∧ (∀ b, kk.getLsbD b = false → (t.getV x).getLsbD b = false) ∧
    t.rngDraws = s.rngDraws + 1 ∧ ChangesOnly [x] [.draws] s t

/-! ## Index register and memory (43_index_memory.md) -/

/-- R170, R171, R172: LD I loads `nnn`; ADD I adds modulo 4096 with no flag (D5); LD F gives five times the register, unmasked (the spec's
decision D12, log 8). -/
def Obligations.IndexInstructionsSetI : Prop :=
  ∀ (x : Nibble) (nnn : Addr) (s : State),
    (∃ t, exec (.ldI nnn) s = .next t ∧ t.regI.toNat = nnn.toNat ∧ ChangesOnly [] [.index] s t) ∧
    (∃ t, exec (.addI x) s = .next t ∧ t.regI.toNat = (s.regI.toNat + (s.getV x).toNat) % 4096 ∧
      ChangesOnly [] [.index] s t) ∧
    (∃ t, exec (.ldF x) s = .next t ∧ t.regI.toNat = 5 * (s.getV x).toNat ∧ ChangesOnly [] [.index] s t)

/-- R173: inside the memory, the BCD store writes the hundreds, tens and ones digits at I, I+1 and I+2 (the spec's decision D29, log 11),
every other byte reads as before, and nothing else changes. -/
def Obligations.BcdStoresTheDigits : Prop :=
  ∀ (x : Nibble) (s : State), s.regI.toNat + 2 < 4096 → ∃ t, exec (.ldB x) s = .next t ∧
    (readByte t.mem s.regI.toNat).toNat = (s.getV x).toNat / 100 ∧
    (readByte t.mem (s.regI.toNat + 1)).toNat = (s.getV x).toNat / 10 % 10 ∧
    (readByte t.mem (s.regI.toNat + 2)).toNat = (s.getV x).toNat % 10 ∧
    (∀ a, a < s.regI.toNat ∨ s.regI.toNat + 2 < a → readByte t.mem a = readByte s.mem a) ∧
    ChangesOnly [] [.mem] s t

/-- R174: inside the memory, V0 to Vx inclusive are stored at I on, every other byte reads as before, and nothing else changes, I
included (D16, log 11). -/
def Obligations.RegisterDumpIsInclusive : Prop :=
  ∀ (x : Nibble) (s : State), s.regI.toNat + x.toNat < 4096 → ∃ t, exec (.ldMemVx x) s = .next t ∧
    (∀ r : Nibble, r.toNat ≤ x.toNat → readByte t.mem (s.regI.toNat + r.toNat) = s.getV r) ∧
    (∀ a, a < s.regI.toNat ∨ s.regI.toNat + x.toNat < a → readByte t.mem a = readByte s.mem a) ∧
    ChangesOnly [] [.mem] s t

/-- R175: inside the memory, V0 to Vx inclusive are loaded from I on, the registers above x keep their values, and nothing else changes,
I included (D16, log 11). -/
def Obligations.RegisterLoadIsInclusive : Prop :=
  ∀ (x : Nibble) (s : State), s.regI.toNat + x.toNat < 4096 → ∃ t, exec (.ldVxMem x) s = .next t ∧
    (∀ r : Nibble, r.toNat ≤ x.toNat → t.getV r = readByte s.mem (s.regI.toNat + r.toNat)) ∧
    (∀ r : Nibble, x.toNat < r.toNat → t.getV r = s.getV r) ∧ ∀ p : Part, p.Same s t

/-- R174, R175: what Fx55 stored, Fx65 loads back, from any state with the memory and the I that it left. That I is the I before Fx55 rests
on the spec's decision D16 (DEDUCED, log 11). -/
def Obligations.LoadGivesBackTheDump : Prop :=
  ∀ (x : Nibble) (s : State), s.regI.toNat + x.toNat < 4096 → ∃ t, exec (.ldMemVx x) s = .next t ∧
    ∀ u : State, u.mem = t.mem → u.regI = t.regI →
      ∃ v, exec (.ldVxMem x) u = .next v ∧ ∀ r : Nibble, r.toNat ≤ x.toNat → v.getV r = s.getV r

/-- R232: each of the four memory instructions, on a range that reaches 4096, raises `MemoryOutOfBounds` with the highest address of the
range, and writes nothing but the fault record (R104, the spec's decisions D9 and D10, log 10). The record's words are the patterns of its
decision D2 (log 9). -/
def Obligations.OutOfBoundsAccessFaults : Prop :=
  ∀ (x y n : Nibble) (s : State),
    (4096 ≤ s.regI.toNat + 2 → ∃ t, exec (.ldB x) s = .next t ∧
      Raised s t .memoryOutOfBounds (0xF#4 ++ x ++ 0x33#8) (some (s.regI.toNat + 2))) ∧
    (4096 ≤ s.regI.toNat + x.toNat → ∃ t, exec (.ldMemVx x) s = .next t ∧
      Raised s t .memoryOutOfBounds (0xF#4 ++ x ++ 0x55#8) (some (s.regI.toNat + x.toNat))) ∧
    (4096 ≤ s.regI.toNat + x.toNat → ∃ t, exec (.ldVxMem x) s = .next t ∧
      Raised s t .memoryOutOfBounds (0xF#4 ++ x ++ 0x65#8) (some (s.regI.toNat + x.toNat))) ∧
    (0 < n.toNat → 4096 ≤ s.regI.toNat + n.toNat - 1 → ∃ t, exec (.drw x y n) s = .next t ∧
      Raised s t .memoryOutOfBounds (0xD#4 ++ x ++ y ++ n) (some (s.regI.toNat + n.toNat - 1)))

/-- R65: two bytes stored by Fx55 are, at once, the word a fetch at their address reads, the lower one high (D1, log 7). -/
def Obligations.StoredCodeIsFetched : Prop :=
  ∀ (x r q : Nibble) (s : State), s.regI.toNat + x.toNat < 4096 → q.toNat = r.toNat + 1 → q.toNat ≤ x.toNat →
    ∃ t, exec (.ldMemVx x) s = .next t ∧
      ∀ u : State, u.mem = t.mem → u.pc.toNat = s.regI.toNat + r.toNat →
        u.fetchWord.toNat = (s.getV r).toNat * 256 + (s.getV q).toNat

/-! ## Display (44_display.md) -/

/-- R190: the word 00E0 is CLS, which turns every pixel off, whatever was on, and changes nothing else. -/
def Obligations.ClearScreenTurnsEveryPixelOff : Prop :=
  ∀ s : State, decodeWord 0x00E0 = .cls ∧
    ∃ t, exec .cls s = .next t ∧ (∀ r c, pixel t.disp r c = false) ∧ ChangesOnly [] [.display] s t

/-- R191, R192, R193: a draw inside the memory toggles exactly the pixels its sprite hits, bit 7 leftmost (D14) and wrapping modulo 64 and
32; VF is 1 iff one of them was on before, else 0; a height of 0 hits nothing (D15); nothing else changes (log 11). -/
def Obligations.DrawTogglesAndReportsCollision : Prop :=
  ∀ (x y n : Nibble) (s : State), n.toNat = 0 ∨ s.regI.toNat + n.toNat - 1 < 4096 →
    let hits := SpriteHits (readBytes s.mem s.regI.toNat n.toNat) (s.getV x).toNat (s.getV y).toNat
    ∃ t, exec (.drw x y n) s = .next t ∧
      (∀ row col, hits row col → pixel t.disp row col = !pixel s.disp row col) ∧
      (∀ row col, ¬hits row col → pixel t.disp row col = pixel s.disp row col) ∧
      ((∃ row col, hits row col ∧ pixel s.disp row col = true) → t.getV 0xF#4 = 1) ∧
      ((∀ row col, hits row col → pixel s.disp row col = false) → t.getV 0xF#4 = 0) ∧
      ChangesOnly [0xF#4] [.display] s t

/-- R192, R193: the same sprite drawn twice at the same place restores the display. The second draw sets VF to 1 iff some pixel of the
sprite was off before the first: R193's corner case "sets VF = 1 the second time" is this one for a sprite drawn on clear pixels
(log 17). Which operands are the place and the height, the spec supplies from general knowledge, and bit 7 is leftmost by its decision D14
(PRESUMED, log 11). -/
def Obligations.DrawTwiceRestoresTheDisplay : Prop :=
  ∀ (x y n : Nibble) (s : State), n.toNat = 0 ∨ s.regI.toNat + n.toNat - 1 < 4096 →
    let hits := SpriteHits (readBytes s.mem s.regI.toNat n.toNat) (s.getV x).toNat (s.getV y).toNat
    ∃ t, exec (.drw x y n) s = .next t ∧
      ∀ u : State, u.disp = t.disp → u.mem = s.mem → u.regI = s.regI → u.getV x = s.getV x → u.getV y = s.getV y →
        ∃ v, exec (.drw x y n) u = .next v ∧ v.disp = s.disp ∧
          (v.getV 0xF#4 = 1 ↔ ∃ row col, hits row col ∧ pixel s.disp row col = false)

/-- R194: no instruction but CLS and DRW writes the display, none but DRW reads it, `initialize` sets it all off, no host call that runs no
instruction writes it but a new machine, and the host's read answers from it alone. -/
def Obligations.OnlyDisplayInstructionsTouchTheDisplay : Prop :=
  (∀ (i : Instr) (s t : State), i ≠ .cls → (∀ x y n, i ≠ .drw x y n) → exec i s = .next t →
    t.disp = s.disp ∧ ∀ d : Display, exec i { s with disp := d } = .next { t with disp := d }) ∧
  (∀ (s : State) (d : Display), exec .cls { s with disp := d } = exec .cls s) ∧
  (∀ (s t : State), s.fault = none → s.batchDone = true → step s = .next t → t.disp = s.disp) ∧
  (∀ (n : Nat) (r : Fin 32) (c : Fin 64), pixel (State.afterReset n).disp r c = false) ∧
  (∀ (c : HostCall) (s t : State) (a : HostReply), (∀ n, c ≠ .newMachine n) → c ≠ .runFrame → c ≠ .executeOne →
    hostCall c s = .next (t, a) → t.disp = s.disp) ∧
  ∀ (s t : State) (a : HostReply), t.disp = s.disp → t.slot = 0 → hostCall .readDisplay s = .next (s, a) →
    hostCall .readDisplay t = .next (t, a)

/-! ## Timers and keys (45_timers_input.md) -/

/-- R210, R211, R212: Fx07 reads DT, Fx15 writes DT, Fx18 writes ST. That they do, the spec supplies wholly from general knowledge
(PRESUMED, log 11). -/
def Obligations.TimerInstructionsMoveTheTimers : Prop :=
  ∀ (x : Nibble) (s : State),
    (∃ t, exec (.ldVxDt x) s = .next t ∧ t.getV x = s.dt ∧ ChangesOnly [x] [] s t) ∧
    (∃ t, exec (.ldDtVx x) s = .next t ∧ t.dt = s.getV x ∧ ChangesOnly [] [.delay] s t) ∧
    (∃ t, exec (.ldStVx x) s = .next t ∧ t.st = s.getV x ∧ ChangesOnly [] [.sound] s t)

/-- R213, R214: with Vx in 0..15, SKP skips iff that key is pressed and SKNP iff it is not. -/
def Obligations.KeySkipsReadTheLatch : Prop :=
  ∀ (x : Nibble) (s : State) (k : Fin 16), (s.getV x).toNat = k.val →
    (∃ t, exec (.skp x) s = .next t ∧ (s.key k = true → t.pc = s.pc + 2) ∧ (s.key k = false → t.pc = s.pc) ∧
      ChangesOnly [] [.pc] s t) ∧
    (∃ t, exec (.sknp x) s = .next t ∧ (s.key k = false → t.pc = s.pc + 2) ∧ (s.key k = true → t.pc = s.pc) ∧
      ChangesOnly [] [.pc] s t)

/-- R233: with Vx above 15 both key skips raise `KeyIndexOutOfRange` with that value (the spec's decisions D9 and D11, log 10). The record's
words are the patterns of its decision D2 (log 9). -/
def Obligations.KeyIndexAboveFifteenFaults : Prop :=
  ∀ (x : Nibble) (s : State), 15 < (s.getV x).toNat →
    (∃ t, exec (.skp x) s = .next t ∧
      Raised s t .keyIndexOutOfRange (0xE#4 ++ x ++ 0x9E#8) (some (s.getV x).toNat)) ∧
    (∃ t, exec (.sknp x) s = .next t ∧
      Raised s t .keyIndexOutOfRange (0xE#4 ++ x ++ 0xA1#8) (some (s.getV x).toNat))

/-- R215: Fx0A with a key pressed stores the lowest one and clears `waiting`; with none it sets `waiting` and rewinds `pc` by 2. -/
def Obligations.WaitForKeyTakesTheLowestOrRewinds : Prop :=
  ∀ (x : Nibble) (s : State),
    (∀ k : Fin 16, s.key k = true → (∀ j : Fin 16, j < k → s.key j = false) →
      ∃ t, exec (.ldVxK x) s = .next t ∧ (t.getV x).toNat = k.val ∧ t.waiting = false ∧
        ChangesOnly [x] [.waiting] s t) ∧
    ((∀ k : Fin 16, s.key k = false) →
      ∃ t, exec (.ldVxK x) s = .next t ∧ t.waiting = true ∧ t.pc = s.pc - 2 ∧ ChangesOnly [] [.waiting, .pc] s t)

/-- R215: with no key pressed, a whole frame that starts at an Fx0A leaves `pc` where it was and `waiting` true, and the timers tick. -/
def Obligations.WaitingFrameStaysAtTheInstruction : Prop :=
  ∀ (x : Nibble) (s : State), s.fault = none → s.pc.toNat ≤ 4094 → 60 ≤ s.clockSpeed →
    decodeWord s.fetchWord = .ldVxK x → (∀ k : Fin 16, s.key k = false) →
    ∃ t, runFrame s = .next t ∧ t.pc = s.pc ∧ t.waiting = true ∧ t.fault = none ∧
      t.dt.toNat = s.dt.toNat - 1 ∧ t.st.toNat = s.st.toNat - 1 ∧
      ChangesOnly [] [.waiting, .delay, .sound] s t

/-- R29: the latches are false after reset, only `set_key` and a new machine write them, and only Ex9E, ExA1 and Fx0A read them. -/
def Obligations.OnlySetKeyWritesTheLatches : Prop :=
  (∀ (n : Nat) (k : Fin 16), (State.afterReset n).key k = false) ∧
  (∀ s t : State, step s = .next t → t.keys = s.keys) ∧
  (∀ (c : HostCall) (s t : State) (r : HostReply), hostCall c s = .next (t, r) →
    (∀ k b, c ≠ .setKey k b) → (∀ n, c ≠ .newMachine n) → t.keys = s.keys) ∧
  (∀ (i : Instr) (s t : State), (∀ x, i ≠ .skp x) → (∀ x, i ≠ .sknp x) → (∀ x, i ≠ .ldVxK x) → exec i s = .next t →
    ∀ ks : Vector Bool 16, exec i { s with keys := ks } = .next { t with keys := ks }) ∧
  ∀ (x : Nibble) (i : Instr), i = .skp x ∨ i = .sknp x ∨ i = .ldVxK x →
    ∃ (s t u : State) (ks : Vector Bool 16), exec i s = .next t ∧ exec i { s with keys := ks } = .next u ∧ t.pc ≠ u.pc

/-! ## The instruction cycle and the frame (40_cycle.md) -/

/-- R100-R103, R106, R108: in a running state whose two bytes at `pc` decode to `i`, a step is `i` executed after the advance, counted as
one instruction of the frame; a fault it raises ends the frame. `execute_one` is the same without the count. -/
def Obligations.StepRunsTheDecodedInstruction : Prop :=
  ∀ (s : State) (i : Instr), Running s →
    decodeBytes [readByte s.mem s.pc.toNat, readByte s.mem (s.pc.toNat + 1)] = .ok (i, []) →
    executeOne s = exec i { s with pc := s.pc + 2 } ∧
    (∀ t, exec i { s with pc := s.pc + 2 } = .next t → t.fault = none → step s = .next { t with slot := t.slot + 1 }) ∧
    (∀ t, exec i { s with pc := s.pc + 2 } = .next t → t.fault ≠ none → step s = .next { t with slot := 0 })

/-- R106, R107, R109, R240: when the batch is over, or `pc` is past 4094, a step ends the frame: each timer loses 1 if nonzero, nothing
else changes but the batch's counter (the spec's decision D8; the counter is the model's, log 2). -/
def Obligations.FrameEndTicksTheTimers : Prop :=
  ∀ s : State, s.fault = none → s.clockSpeed / 60 ≤ s.slot ∨ 4094 < s.pc.toNat →
    ∃ t, step s = .next t ∧ t.dt.toNat = s.dt.toNat - 1 ∧ t.st.toNat = s.st.toNat - 1 ∧ t.slot = 0 ∧
      ChangesOnly [] [.delay, .sound, .slot] s t

/-- R105, R110, R234: a machine with a fault recorded is stopped: a step answers with the record, `execute_one` and `run_frame` change
nothing, and no host call but a new machine changes anything (the spec's decision D9; the reply to a load is the model's, log 13). -/
def Obligations.StoppedMachineNeverChanges : Prop :=
  ∀ (s : State) (r : FaultRecord), s.fault = some r →
    step s = .fault (.stopped r) ∧ executeOne s = .next s ∧ runFrame s = .next s ∧
    ∀ (c : HostCall) (t : State) (a : HostReply), hostCall c s = .next (t, a) → (∀ n, c ≠ .newMachine n) → t = s

/-- R107, R109, R245: a halted machine runs no instruction ever again: `k` steps are `k` frame ends, after which each timer has lost `k`
(down to 0) and nothing else has changed but the batch's counter. -/
def Obligations.HaltedMachineOnlyTicks : Prop :=
  ∀ (k : Nat) (s : State), Halted s → ∃ t, Host.Core.run Sys2Proof.core k s = .next t ∧
    t.dt.toNat = s.dt.toNat - k ∧ t.st.toNat = s.st.toNat - k ∧ ChangesOnly [] [.delay, .sound, .slot] s t

/-- R106, R110, R246: from the start of a frame, at most `floor(CLOCK_SPEED / 60) + 1` steps reach exactly the state `run_frame` answers: the
step machine and the whole-frame operation are one machine. The host's `run_frame` and `execute_one` are those operations, and give the host
back the fault record, if there is one. The steps and their counter are the model's (DESIGN CHOICE, log 2), the tick of a short frame is the
spec's decision D8 (log 12), a fault's end of the frame its D9 (log 10), the reply on a stopped machine the model's (DESIGN CHOICE, log 13). -/
def Obligations.StepsMakeUpRunFrame : Prop :=
  ∀ s : State, s.slot = 0 → ∃ (k : Nat) (t : State), k ≤ s.clockSpeed / 60 + 1 ∧ (s.fault = none → 0 < k) ∧
    Host.Core.run Sys2Proof.core k s = .next t ∧ runFrame s = .next t ∧
    hostCall .runFrame s = .next (t, .faultRaised t.fault) ∧
    ∃ u : State, executeOne s = .next u ∧ hostCall .executeOne s = .next (u, .faultRaised u.fault)

/-- R104, R230: an instruction that raises a fault writes the fault record, whose opcode is its own word, and nothing else; `pc` is back at
its address. -/
def Obligations.FaultsAreAtomic : Prop :=
  ∀ (i : Instr) (s t : State), exec i s = .next t → s.fault = none → t.fault ≠ none →
    ∃ kind info, Raised s t kind (encode i) info

/-- R230, R237: a step that faults records the failing instruction's address and the word fetched, and leaves the rest of the state as it
was before that instruction; the frame is over. -/
def Obligations.FaultingStepIsPrecise : Prop :=
  ∀ (s t : State) (r : FaultRecord), Running s → step s = .next t → t.fault = some r →
    r.pc = s.pc ∧ r.opcode = some s.fetchWord ∧ t = { s with fault := some r, slot := 0 }

/-- R231-R233, R235, R238: an instruction raises a fault exactly under its rule's condition, with the kind and info of that rule, and at
most one. The record and what it holds are the spec's decision D9, and the condition of `KeyIndexOutOfRange` its decision D11 (DEDUCED,
log 10); the record's word is the pattern of its decision D2 (log 9). -/
def Obligations.FaultsArisePreciselyWhenTheRulesSay : Prop :=
  ∀ (i : Instr) (s t : State), exec i s = .next t → s.fault = none →
    t.fault = (expectedFault i s).map fun f =>
      { kind := f.1, pc := s.pc - 2, opcode := some (encode i), info := f.2 }

/-- R235, R81: no instruction leaves the machine without a next state: every one is executed, in every state. It holds of an instruction
that raises a fault because a raised fault is a next state (the spec's decision D9, DEDUCED, log 10). -/
def Obligations.EveryInstructionIsExecuted : Prop :=
  ∀ (i : Instr) (s : State), ∃ t, exec i s = .next t

/-- R101, R53: `execute_one` called past 4094 raises `MemoryOutOfBounds` with `pc + 1`, no opcode, and does not advance `pc` (the spec's
decision D24, log 10). -/
def Obligations.FetchPastTheEndFaults : Prop :=
  ∀ s : State, s.fault = none → 4094 < s.pc.toNat →
    ∃ t, executeOne s = .next t ∧
      t.fault = some { kind := .memoryOutOfBounds, pc := s.pc, opcode := none, info := some (s.pc.toNat + 1) } ∧
      ChangesOnly [] [.fault] s t

/-! ## Whole-machine rules -/

/-- R60: no instruction but Fx33 and Fx55 changes memory, no frame end changes it, and every address, the font's included, can be
written. That the byte Fx33 stores at `I` is the hundreds digit is the spec's decision D29 (DEDUCED, log 11). -/
def Obligations.OnlyTheTwoStoresWriteMemory : Prop :=
  (∀ (i : Instr) (s t : State), (∀ x, i ≠ .ldB x) → (∀ x, i ≠ .ldMemVx x) → exec i s = .next t → t.mem = s.mem) ∧
  (∀ (s t : State), s.batchDone = true → step s = .next t → t.mem = s.mem) ∧
  ∀ s : State, s.regI.toNat < 4096 →
    (∃ t, exec (.ldMemVx 0) s = .next t ∧ readByte t.mem s.regI.toNat = s.getV 0) ∧
    (s.regI.toNat + 2 < 4096 → ∀ x, ∃ t, exec (.ldB x) s = .next t ∧
      (readByte t.mem s.regI.toNat).toNat = (s.getV x).toNat / 100)

/-- R22: VF changes only in the five flag-setting register instructions, in a draw, or where VF is the named destination. The rule is
marked derived; that 7xkk, 8xy1, 8xy2, 8xy3 and Fx1E leave VF alone is the spec's decision D5 (log 11). -/
def Obligations.OnlyFlagInstructionsWriteVF : Prop :=
  ∀ (i : Instr) (s t : State), exec i s = .next t → t.getV 0xF#4 ≠ s.getV 0xF#4 →
    (∃ x y, i = .addReg x y ∨ i = .subReg x y ∨ i = .shr x y ∨ i = .subnReg x y ∨ i = .shl x y) ∨
    (∃ x y n, i = .drw x y n) ∨
    (∃ kk y, i = .ldByte 0xF#4 kk ∨ i = .addByte 0xF#4 kk ∨ i = .ldReg 0xF#4 y ∨ i = .orReg 0xF#4 y ∨ i = .andReg 0xF#4 y ∨
      i = .xorReg 0xF#4 y ∨ i = .rnd 0xF#4 kk ∨ i = .ldVxDt 0xF#4 ∨ i = .ldVxK 0xF#4 ∨ i = .ldVxMem 0xF#4)

/-- R26: no instruction but CALL and RET changes the stack. -/
def Obligations.OnlyCallAndReturnTouchTheStack : Prop :=
  ∀ (i : Instr) (s t : State), (∀ nnn, i ≠ .call nnn) → i ≠ .ret → exec i s = .next t →
    t.stack = s.stack ∧ ∀ l : List Word, exec i { s with stack := l } = .next { t with stack := l }

/-- R34: any positive CLOCK_SPEED is accepted and stored when a machine is made, no instruction reads or writes it, and no step and no
other host call changes it. That `State.reset` is the machine with the reference default 600 is the model's choice (DESIGN CHOICE, log 5). -/
def Obligations.ClockSpeedBelongsToTheScheduler : Prop :=
  (∀ (n : Nat) (s : State), s.slot = 0 → 0 < n →
    ∃ t, hostCall (.newMachine n) s = .next (t, .nothing) ∧ t.clockSpeed = n) ∧
  State.reset.clockSpeed = 600 ∧
  (∀ (i : Instr) (s t : State), exec i s = .next t → t.clockSpeed = s.clockSpeed ∧
    ∀ n : Nat, exec i { s with clockSpeed := n } = .next { t with clockSpeed := n }) ∧
  (∀ s t : State, step s = .next t → t.clockSpeed = s.clockSpeed) ∧
  ∀ (c : HostCall) (s t : State) (r : HostReply), hostCall c s = .next (t, r) → (∀ n, c ≠ .newMachine n) →
    t.clockSpeed = s.clockSpeed

/-- R28, R32, R240: no program can observe ST or `waiting`: two states that differ only there step to states that differ only there.
That Fx18 alone is the instruction of ST is from general knowledge (PRESUMED, log 11), who clears `waiting` is D19 (log 12). -/
def Obligations.SoundAndWaitingAreNotObserved : Prop :=
  ∀ (s t : State) (st : Byte) (w : Bool), step s = .next t →
    ∃ (st' : Byte) (w' : Bool), step { s with st := st, waiting := w } = .next { t with st := st', waiting := w' }

/-! ## Invariants -/

/-- R40, R260: a new machine with a positive clock speed satisfies the invariant. -/
def Obligations.NewMachineSatisfiesTheInvariant : Prop :=
  ∀ n : Nat, 0 < n → Inv (State.afterReset n)

/-- R23, R24, R50, R120, R230: every step, from every state that satisfies the invariant, keeps it: memory stays canonical, `I` below
4096, `pc` at most 4350 (the spec's decision D6, log 12), return addresses at most 4096, the batch's counter (the model's, log 2) within the
batch, and a fault record is sound (D9, log 10). -/
def Obligations.EveryStepKeepsTheInvariant : Prop :=
  ∀ s t : State, Inv s → step s = .next t → Inv t

/-- R246: every host call keeps the invariant too. -/
def Obligations.EveryHostCallKeepsTheInvariant : Prop :=
  ∀ (c : HostCall) (s t : State) (r : HostReply), Inv s → hostCall c s = .next (t, r) → Inv t

/-- R111: every state of every run, steps and host calls in any order, satisfies the invariant, and is stopped or has a next state. A
corollary of the invariant's statements; a step is the model's unit (log 2). -/
def Obligations.ReachableStatesSatisfyTheInvariant : Prop :=
  ∀ s : State, Reachable s → Inv s ∧ (Stopped s ∨ ∃ t, step s = .next t)

/-! ## Reset and the host (60_exceptions.md, 70_reset_and_hazards.md) -/

/-- R40, R260: every element after reset, and `initialize` as the host's operation: between frames it answers exactly that state, whatever
the machine was, a stopped one included (R234). The font bytes are the spec's decision D13 (log 3), the clock speed is the argument, and the
model's count of draws goes on (DESIGN CHOICE, log 1). -/
def Obligations.ResetSetsEveryElement : Prop :=
  (∀ n : Nat,
    let s := State.afterReset n
    (∀ a, 80 ≤ a → readByte s.mem a = 0) ∧
    readBytes s.mem 0 80 =
      [0xF0, 0x90, 0x90, 0x90, 0xF0] ++ [0x20, 0x60, 0x20, 0x20, 0x70] ++ [0xF0, 0x10, 0xF0, 0x80, 0xF0] ++
      [0xF0, 0x10, 0xF0, 0x10, 0xF0] ++ [0x90, 0x90, 0xF0, 0x10, 0x10] ++ [0xF0, 0x80, 0xF0, 0x10, 0xF0] ++
      [0xF0, 0x80, 0xF0, 0x90, 0xF0] ++ [0xF0, 0x10, 0x20, 0x40, 0x40] ++ [0xF0, 0x90, 0xF0, 0x90, 0xF0] ++
      [0xF0, 0x90, 0xF0, 0x10, 0xF0] ++ [0xF0, 0x90, 0xF0, 0x90, 0x90] ++ [0xE0, 0x90, 0xE0, 0x90, 0xE0] ++
      [0xF0, 0x80, 0x80, 0x80, 0xF0] ++ [0xE0, 0x90, 0x90, 0x90, 0xE0] ++ [0xF0, 0x80, 0xF0, 0x80, 0xF0] ++
      [0xF0, 0x80, 0xF0, 0x80, 0x80] ∧
    (∀ r, s.getV r = 0) ∧ s.regI = 0 ∧ s.pc = 512 ∧ s.stack = [] ∧ s.dt = 0 ∧ s.st = 0 ∧ (∀ k, s.key k = false) ∧
    (∀ r c, pixel s.disp r c = false) ∧ s.waiting = false ∧ s.fault = none ∧ s.clockSpeed = n) ∧
  ∀ (n : Nat) (s : State), s.slot = 0 → 0 < n →
    hostCall (.newMachine n) s = .next ({ State.afterReset n with rngDraws := s.rngDraws }, .nothing)

/-- R261: a program that fits is copied to 512 on and nothing else changes; one that does not fit changes nothing, and fails (D18, log 12). -/
def Obligations.LoadProgramFitsOrFails : Prop :=
  ∀ (bytes : List Byte) (s : State), s.slot = 0 → s.fault = none →
    (512 + bytes.length ≤ 4096 → ∃ t, hostCall (.loadProgram bytes) s = .next (t, .loaded true) ∧
      (∀ k, k < bytes.length → some (readByte t.mem (512 + k)) = bytes[k]?) ∧
      (∀ a, a < 512 ∨ 512 + bytes.length ≤ a → readByte t.mem a = readByte s.mem a) ∧ ChangesOnly [] [.mem] s t) ∧
    (4096 < 512 + bytes.length → hostCall (.loadProgram bytes) s = .next (s, .loaded false))

/-- R262, R263: after a new machine and a load, the first instruction is the one at 512, its first byte high (D1, log 7). -/
def Obligations.FirstInstructionIsAt512 : Prop :=
  ∀ (n : Nat) (hi lo : Byte) (rest : List Byte), 60 ≤ n → rest.length ≤ 3582 →
    ∃ t, hostCall (.loadProgram (hi :: lo :: rest)) (State.afterReset n) = .next (t, .loaded true) ∧ Running t ∧
      t.pc = 512 ∧ t.fetchWord.toNat = hi.toNat * 256 + lo.toNat

/-- R248: `set_key` writes that latch only; a press clears `waiting`, a release does not touch it. -/
def Obligations.SetKeyWritesOneLatch : Prop :=
  ∀ (k : Nibble) (pressed : Bool) (s : State), s.slot = 0 → s.fault = none →
    ∃ t, hostCall (.setKey k pressed) s = .next (t, .nothing) ∧
      (∀ j : Fin 16, t.key j = if j.val = k.toNat then pressed else s.key j) ∧
      (pressed = true → t.waiting = false) ∧ (pressed = false → t.waiting = s.waiting) ∧
      ChangesOnly [] [.keys, .waiting] s t

/-- R249, R31, R250: `read_display` hands over 8192 bytes, pixel `(r, c)` at `4 * (64 * r + c)`: zeros when off, `PIXEL_ON` when on,
whatever that parameter is (D20, log 6); the sound output is `ST ≠ 0` (D23); neither changes anything. -/
def Obligations.HostReadsShowTheState : Prop :=
  ∀ s : State, s.slot = 0 →
    (∃ buffer, hostCall .readDisplay s = .next (s, .display buffer) ∧ buffer.length = 8192 ∧
      ∀ (r : Fin 32) (c : Fin 64) (b : Nat) (hb : b < 4), buffer[4 * (64 * r.val + c.val) + b]? =
        some (if pixel s.disp r c then Config.pixelOn[b] else 0)) ∧
    (∃ on, hostCall .readSound s = .next (s, .tone on) ∧ (on = true ↔ s.st ≠ 0))

/-- R247: during a frame the host has no move (D26, log 15). -/
def Obligations.HostHasNoMoveDuringAFrame : Prop :=
  ∀ (c : HostCall) (s : State), s.slot ≠ 0 → hostCall c s = .refused .hostCallDuringFrame

/-! ## Encoding (30_encoding.md) -/

/-- R71, R73, R74, R82: decoding an instruction's word gives that instruction, every operand at every value, and so do its two bytes. -/
def Obligations.DecodeUndoesEncode : Prop :=
  ∀ i : Instr, i.wellFormed = true → decodeWord (encode i) = i ∧
    ∀ rest : List Byte, decodeBytes (encodeBytes i ++ rest) = .ok (i, rest)

/-- R73, R82: every one of the 65536 words decodes to a well-formed instruction whose word it is: no bit is forgotten and no two words
mean one thing in the syntax. -/
def Obligations.EncodeUndoesDecode : Prop :=
  ∀ w : Word, encode (decodeWord w) = w ∧ (decodeWord w).wellFormed = true

/-- R73: a word of each of the sixteen classes, written out from the tree (the spec's decisions D2 and D3, log 9). -/
def Obligations.WordsOfEachClassDecode : Prop :=
  decodeWord 0x00E0 = .cls ∧ decodeWord 0x00EE = .ret ∧ decodeWord 0x1200 = .jp 0x200 ∧ decodeWord 0x2300 = .call 0x300 ∧
  decodeWord 0x3310 = .seByte 3 0x10 ∧ decodeWord 0x4311 = .sneByte 3 0x11 ∧ decodeWord 0x5120 = .seReg 1 2 0 ∧
  decodeWord 0x6A02 = .ldByte 0xA 0x02 ∧ decodeWord 0x7120 = .addByte 1 0x20 ∧ decodeWord 0x8124 = .addReg 1 2 ∧
  decodeWord 0x912F = .sneReg 1 2 0xF ∧ decodeWord 0xA300 = .ldI 0x300 ∧ decodeWord 0xB345 = .jpV0 0x345 ∧
  decodeWord 0xC10F = .rnd 1 0x0F ∧ decodeWord 0xD125 = .drw 1 2 5 ∧
  decodeWord 0xE19E = .skp 1 ∧ decodeWord 0xF265 = .ldVxMem 2 ∧ decodeWord 0x8128 = .noOp 0x8128

/-- The host's way to place an instruction: the next step runs exactly it, from any state (log 14). -/
def Obligations.PlacedWordRunsNext : Prop :=
  ∀ (s : State) (w : Nat), w < 65536 →
    Running (s.withFetchWord 16 w) ∧ (s.withFetchWord 16 w).fetchWord.toNat = w ∧
    decodeTableWord 16 w = some (decodeWord (s.withFetchWord 16 w).fetchWord)
end

