-- ==== Sys2Proof/Laws/State.lean ====
section
/-! SUPPORT. Laws/State.lean: what each state update does to each field, one lemma per field and update, so that no proof unfolds a record update. -/

namespace Sys2Proof.Machine

/-! ## setV -/

@[simp] theorem State.setV_mem (s : State) (x : Nibble) (b : Byte) : (s.setV x b).mem = s.mem := rfl
@[simp] theorem State.setV_regs (s : State) (x : Nibble) (b : Byte) : (s.setV x b).regs = s.regs.set x.toNat b x.isLt := rfl
@[simp] theorem State.setV_regI (s : State) (x : Nibble) (b : Byte) : (s.setV x b).regI = s.regI := rfl
@[simp] theorem State.setV_pc (s : State) (x : Nibble) (b : Byte) : (s.setV x b).pc = s.pc := rfl
@[simp] theorem State.setV_stack (s : State) (x : Nibble) (b : Byte) : (s.setV x b).stack = s.stack := rfl
@[simp] theorem State.setV_dt (s : State) (x : Nibble) (b : Byte) : (s.setV x b).dt = s.dt := rfl
@[simp] theorem State.setV_st (s : State) (x : Nibble) (b : Byte) : (s.setV x b).st = s.st := rfl
@[simp] theorem State.setV_keys (s : State) (x : Nibble) (b : Byte) : (s.setV x b).keys = s.keys := rfl
@[simp] theorem State.setV_disp (s : State) (x : Nibble) (b : Byte) : (s.setV x b).disp = s.disp := rfl
@[simp] theorem State.setV_waiting (s : State) (x : Nibble) (b : Byte) : (s.setV x b).waiting = s.waiting := rfl
@[simp] theorem State.setV_fault (s : State) (x : Nibble) (b : Byte) : (s.setV x b).fault = s.fault := rfl
@[simp] theorem State.setV_clockSpeed (s : State) (x : Nibble) (b : Byte) : (s.setV x b).clockSpeed = s.clockSpeed := rfl
@[simp] theorem State.setV_rngDraws (s : State) (x : Nibble) (b : Byte) : (s.setV x b).rngDraws = s.rngDraws := rfl
@[simp] theorem State.setV_slot (s : State) (x : Nibble) (b : Byte) : (s.setV x b).slot = s.slot := rfl

/-! ## advance -/

@[simp] theorem State.advance_mem (s : State) : s.advance.mem = s.mem := rfl
@[simp] theorem State.advance_regs (s : State) : s.advance.regs = s.regs := rfl
@[simp] theorem State.advance_regI (s : State) : s.advance.regI = s.regI := rfl
@[simp] theorem State.advance_pc (s : State) : s.advance.pc = s.pc + 2 := rfl
@[simp] theorem State.advance_stack (s : State) : s.advance.stack = s.stack := rfl
@[simp] theorem State.advance_dt (s : State) : s.advance.dt = s.dt := rfl
@[simp] theorem State.advance_st (s : State) : s.advance.st = s.st := rfl
@[simp] theorem State.advance_keys (s : State) : s.advance.keys = s.keys := rfl
@[simp] theorem State.advance_disp (s : State) : s.advance.disp = s.disp := rfl
@[simp] theorem State.advance_waiting (s : State) : s.advance.waiting = s.waiting := rfl
@[simp] theorem State.advance_fault (s : State) : s.advance.fault = s.fault := rfl
@[simp] theorem State.advance_clockSpeed (s : State) : s.advance.clockSpeed = s.clockSpeed := rfl
@[simp] theorem State.advance_rngDraws (s : State) : s.advance.rngDraws = s.rngDraws := rfl
@[simp] theorem State.advance_slot (s : State) : s.advance.slot = s.slot := rfl

/-! ## jumpTo -/

@[simp] theorem State.jumpTo_mem (s : State) (a : Word) : (s.jumpTo a).mem = s.mem := rfl
@[simp] theorem State.jumpTo_regs (s : State) (a : Word) : (s.jumpTo a).regs = s.regs := rfl
@[simp] theorem State.jumpTo_regI (s : State) (a : Word) : (s.jumpTo a).regI = s.regI := rfl
@[simp] theorem State.jumpTo_pc (s : State) (a : Word) : (s.jumpTo a).pc = a := rfl
@[simp] theorem State.jumpTo_stack (s : State) (a : Word) : (s.jumpTo a).stack = s.stack := rfl
@[simp] theorem State.jumpTo_dt (s : State) (a : Word) : (s.jumpTo a).dt = s.dt := rfl
@[simp] theorem State.jumpTo_st (s : State) (a : Word) : (s.jumpTo a).st = s.st := rfl
@[simp] theorem State.jumpTo_keys (s : State) (a : Word) : (s.jumpTo a).keys = s.keys := rfl
@[simp] theorem State.jumpTo_disp (s : State) (a : Word) : (s.jumpTo a).disp = s.disp := rfl
@[simp] theorem State.jumpTo_waiting (s : State) (a : Word) : (s.jumpTo a).waiting = s.waiting := rfl
@[simp] theorem State.jumpTo_fault (s : State) (a : Word) : (s.jumpTo a).fault = s.fault := rfl
@[simp] theorem State.jumpTo_clockSpeed (s : State) (a : Word) : (s.jumpTo a).clockSpeed = s.clockSpeed := rfl
@[simp] theorem State.jumpTo_rngDraws (s : State) (a : Word) : (s.jumpTo a).rngDraws = s.rngDraws := rfl
@[simp] theorem State.jumpTo_slot (s : State) (a : Word) : (s.jumpTo a).slot = s.slot := rfl

/-! ## skipIf -/

@[simp] theorem State.skipIf_mem (s : State) (c : Bool) : (s.skipIf c).mem = s.mem := rfl
@[simp] theorem State.skipIf_regs (s : State) (c : Bool) : (s.skipIf c).regs = s.regs := rfl
@[simp] theorem State.skipIf_regI (s : State) (c : Bool) : (s.skipIf c).regI = s.regI := rfl
@[simp] theorem State.skipIf_pc (s : State) (c : Bool) : (s.skipIf c).pc = if c then s.pc + 2 else s.pc := rfl
@[simp] theorem State.skipIf_stack (s : State) (c : Bool) : (s.skipIf c).stack = s.stack := rfl
@[simp] theorem State.skipIf_dt (s : State) (c : Bool) : (s.skipIf c).dt = s.dt := rfl
@[simp] theorem State.skipIf_st (s : State) (c : Bool) : (s.skipIf c).st = s.st := rfl
@[simp] theorem State.skipIf_keys (s : State) (c : Bool) : (s.skipIf c).keys = s.keys := rfl
@[simp] theorem State.skipIf_disp (s : State) (c : Bool) : (s.skipIf c).disp = s.disp := rfl
@[simp] theorem State.skipIf_waiting (s : State) (c : Bool) : (s.skipIf c).waiting = s.waiting := rfl
@[simp] theorem State.skipIf_fault (s : State) (c : Bool) : (s.skipIf c).fault = s.fault := rfl
@[simp] theorem State.skipIf_clockSpeed (s : State) (c : Bool) : (s.skipIf c).clockSpeed = s.clockSpeed := rfl
@[simp] theorem State.skipIf_rngDraws (s : State) (c : Bool) : (s.skipIf c).rngDraws = s.rngDraws := rfl
@[simp] theorem State.skipIf_slot (s : State) (c : Bool) : (s.skipIf c).slot = s.slot := rfl

/-! ## rewind -/

@[simp] theorem State.rewind_mem (s : State) : s.rewind.mem = s.mem := rfl
@[simp] theorem State.rewind_regs (s : State) : s.rewind.regs = s.regs := rfl
@[simp] theorem State.rewind_regI (s : State) : s.rewind.regI = s.regI := rfl
@[simp] theorem State.rewind_pc (s : State) : s.rewind.pc = s.pc - 2 := rfl
@[simp] theorem State.rewind_stack (s : State) : s.rewind.stack = s.stack := rfl
@[simp] theorem State.rewind_dt (s : State) : s.rewind.dt = s.dt := rfl
@[simp] theorem State.rewind_st (s : State) : s.rewind.st = s.st := rfl
@[simp] theorem State.rewind_keys (s : State) : s.rewind.keys = s.keys := rfl
@[simp] theorem State.rewind_disp (s : State) : s.rewind.disp = s.disp := rfl
@[simp] theorem State.rewind_waiting (s : State) : s.rewind.waiting = s.waiting := rfl
@[simp] theorem State.rewind_fault (s : State) : s.rewind.fault = s.fault := rfl
@[simp] theorem State.rewind_clockSpeed (s : State) : s.rewind.clockSpeed = s.clockSpeed := rfl
@[simp] theorem State.rewind_rngDraws (s : State) : s.rewind.rngDraws = s.rngDraws := rfl
@[simp] theorem State.rewind_slot (s : State) : s.rewind.slot = s.slot := rfl

/-! ## push -/

@[simp] theorem State.push_mem (s : State) (a : Word) : (s.push a).mem = s.mem := rfl
@[simp] theorem State.push_regs (s : State) (a : Word) : (s.push a).regs = s.regs := rfl
@[simp] theorem State.push_regI (s : State) (a : Word) : (s.push a).regI = s.regI := rfl
@[simp] theorem State.push_pc (s : State) (a : Word) : (s.push a).pc = s.pc := rfl
@[simp] theorem State.push_stack (s : State) (a : Word) : (s.push a).stack = s.stack ++ [a] := rfl
@[simp] theorem State.push_dt (s : State) (a : Word) : (s.push a).dt = s.dt := rfl
@[simp] theorem State.push_st (s : State) (a : Word) : (s.push a).st = s.st := rfl
@[simp] theorem State.push_keys (s : State) (a : Word) : (s.push a).keys = s.keys := rfl
@[simp] theorem State.push_disp (s : State) (a : Word) : (s.push a).disp = s.disp := rfl
@[simp] theorem State.push_waiting (s : State) (a : Word) : (s.push a).waiting = s.waiting := rfl
@[simp] theorem State.push_fault (s : State) (a : Word) : (s.push a).fault = s.fault := rfl
@[simp] theorem State.push_clockSpeed (s : State) (a : Word) : (s.push a).clockSpeed = s.clockSpeed := rfl
@[simp] theorem State.push_rngDraws (s : State) (a : Word) : (s.push a).rngDraws = s.rngDraws := rfl
@[simp] theorem State.push_slot (s : State) (a : Word) : (s.push a).slot = s.slot := rfl

/-! ## raise -/

@[simp] theorem raise_mem (s : State) (a : Word) (k : FaultKind) (op : Option Word) (info : Option Nat) : (raise s a k op info).mem = s.mem := rfl
@[simp] theorem raise_regs (s : State) (a : Word) (k : FaultKind) (op : Option Word) (info : Option Nat) : (raise s a k op info).regs = s.regs := rfl
@[simp] theorem raise_regI (s : State) (a : Word) (k : FaultKind) (op : Option Word) (info : Option Nat) : (raise s a k op info).regI = s.regI := rfl
@[simp] theorem raise_pc (s : State) (a : Word) (k : FaultKind) (op : Option Word) (info : Option Nat) : (raise s a k op info).pc = a := rfl
@[simp] theorem raise_stack (s : State) (a : Word) (k : FaultKind) (op : Option Word) (info : Option Nat) : (raise s a k op info).stack = s.stack := rfl
@[simp] theorem raise_dt (s : State) (a : Word) (k : FaultKind) (op : Option Word) (info : Option Nat) : (raise s a k op info).dt = s.dt := rfl
@[simp] theorem raise_st (s : State) (a : Word) (k : FaultKind) (op : Option Word) (info : Option Nat) : (raise s a k op info).st = s.st := rfl
@[simp] theorem raise_keys (s : State) (a : Word) (k : FaultKind) (op : Option Word) (info : Option Nat) : (raise s a k op info).keys = s.keys := rfl
@[simp] theorem raise_disp (s : State) (a : Word) (k : FaultKind) (op : Option Word) (info : Option Nat) : (raise s a k op info).disp = s.disp := rfl
@[simp] theorem raise_waiting (s : State) (a : Word) (k : FaultKind) (op : Option Word) (info : Option Nat) : (raise s a k op info).waiting = s.waiting := rfl
@[simp] theorem raise_fault (s : State) (a : Word) (k : FaultKind) (op : Option Word) (info : Option Nat) : (raise s a k op info).fault = some ⟨k, a, op, info⟩ := rfl
@[simp] theorem raise_clockSpeed (s : State) (a : Word) (k : FaultKind) (op : Option Word) (info : Option Nat) : (raise s a k op info).clockSpeed = s.clockSpeed := rfl
@[simp] theorem raise_rngDraws (s : State) (a : Word) (k : FaultKind) (op : Option Word) (info : Option Nat) : (raise s a k op info).rngDraws = s.rngDraws := rfl
@[simp] theorem raise_slot (s : State) (a : Word) (k : FaultKind) (op : Option Word) (info : Option Nat) : (raise s a k op info).slot = s.slot := rfl

/-! ## timerTick -/

@[simp] theorem State.timerTick_mem (s : State) : s.timerTick.mem = s.mem := rfl
@[simp] theorem State.timerTick_regs (s : State) : s.timerTick.regs = s.regs := rfl
@[simp] theorem State.timerTick_regI (s : State) : s.timerTick.regI = s.regI := rfl
@[simp] theorem State.timerTick_pc (s : State) : s.timerTick.pc = s.pc := rfl
@[simp] theorem State.timerTick_stack (s : State) : s.timerTick.stack = s.stack := rfl
@[simp] theorem State.timerTick_dt (s : State) : s.timerTick.dt = tickByte s.dt := rfl
@[simp] theorem State.timerTick_st (s : State) : s.timerTick.st = tickByte s.st := rfl
@[simp] theorem State.timerTick_keys (s : State) : s.timerTick.keys = s.keys := rfl
@[simp] theorem State.timerTick_disp (s : State) : s.timerTick.disp = s.disp := rfl
@[simp] theorem State.timerTick_waiting (s : State) : s.timerTick.waiting = s.waiting := rfl
@[simp] theorem State.timerTick_fault (s : State) : s.timerTick.fault = s.fault := rfl
@[simp] theorem State.timerTick_clockSpeed (s : State) : s.timerTick.clockSpeed = s.clockSpeed := rfl
@[simp] theorem State.timerTick_rngDraws (s : State) : s.timerTick.rngDraws = s.rngDraws := rfl
@[simp] theorem State.timerTick_slot (s : State) : s.timerTick.slot = s.slot := rfl

/-! ## endFrame -/

@[simp] theorem State.endFrame_mem (s : State) : s.endFrame.mem = s.mem := rfl
@[simp] theorem State.endFrame_regs (s : State) : s.endFrame.regs = s.regs := rfl
@[simp] theorem State.endFrame_regI (s : State) : s.endFrame.regI = s.regI := rfl
@[simp] theorem State.endFrame_pc (s : State) : s.endFrame.pc = s.pc := rfl
@[simp] theorem State.endFrame_stack (s : State) : s.endFrame.stack = s.stack := rfl
@[simp] theorem State.endFrame_dt (s : State) : s.endFrame.dt = tickByte s.dt := rfl
@[simp] theorem State.endFrame_st (s : State) : s.endFrame.st = tickByte s.st := rfl
@[simp] theorem State.endFrame_keys (s : State) : s.endFrame.keys = s.keys := rfl
@[simp] theorem State.endFrame_disp (s : State) : s.endFrame.disp = s.disp := rfl
@[simp] theorem State.endFrame_waiting (s : State) : s.endFrame.waiting = s.waiting := rfl
@[simp] theorem State.endFrame_fault (s : State) : s.endFrame.fault = s.fault := rfl
@[simp] theorem State.endFrame_clockSpeed (s : State) : s.endFrame.clockSpeed = s.clockSpeed := rfl
@[simp] theorem State.endFrame_rngDraws (s : State) : s.endFrame.rngDraws = s.rngDraws := rfl
@[simp] theorem State.endFrame_slot (s : State) : s.endFrame.slot = 0 := rfl

/-! ## setFlagAndV -/

@[simp] theorem State.setFlagAndV_mem (s : State) (x : Nibble) (f : Bool) (b : Byte) : (s.setFlagAndV x f b).mem = s.mem := rfl
@[simp] theorem State.setFlagAndV_regs (s : State) (x : Nibble) (f : Bool) (b : Byte) : (s.setFlagAndV x f b).regs = ((s.setV regVF (flagByte f)).setV x b).regs := rfl
@[simp] theorem State.setFlagAndV_regI (s : State) (x : Nibble) (f : Bool) (b : Byte) : (s.setFlagAndV x f b).regI = s.regI := rfl
@[simp] theorem State.setFlagAndV_pc (s : State) (x : Nibble) (f : Bool) (b : Byte) : (s.setFlagAndV x f b).pc = s.pc := rfl
@[simp] theorem State.setFlagAndV_stack (s : State) (x : Nibble) (f : Bool) (b : Byte) : (s.setFlagAndV x f b).stack = s.stack := rfl
@[simp] theorem State.setFlagAndV_dt (s : State) (x : Nibble) (f : Bool) (b : Byte) : (s.setFlagAndV x f b).dt = s.dt := rfl
@[simp] theorem State.setFlagAndV_st (s : State) (x : Nibble) (f : Bool) (b : Byte) : (s.setFlagAndV x f b).st = s.st := rfl
@[simp] theorem State.setFlagAndV_keys (s : State) (x : Nibble) (f : Bool) (b : Byte) : (s.setFlagAndV x f b).keys = s.keys := rfl
@[simp] theorem State.setFlagAndV_disp (s : State) (x : Nibble) (f : Bool) (b : Byte) : (s.setFlagAndV x f b).disp = s.disp := rfl
@[simp] theorem State.setFlagAndV_waiting (s : State) (x : Nibble) (f : Bool) (b : Byte) : (s.setFlagAndV x f b).waiting = s.waiting := rfl
@[simp] theorem State.setFlagAndV_fault (s : State) (x : Nibble) (f : Bool) (b : Byte) : (s.setFlagAndV x f b).fault = s.fault := rfl
@[simp] theorem State.setFlagAndV_clockSpeed (s : State) (x : Nibble) (f : Bool) (b : Byte) : (s.setFlagAndV x f b).clockSpeed = s.clockSpeed := rfl
@[simp] theorem State.setFlagAndV_rngDraws (s : State) (x : Nibble) (f : Bool) (b : Byte) : (s.setFlagAndV x f b).rngDraws = s.rngDraws := rfl
@[simp] theorem State.setFlagAndV_slot (s : State) (x : Nibble) (f : Bool) (b : Byte) : (s.setFlagAndV x f b).slot = s.slot := rfl

/-! ## countSlot -/

@[simp] theorem State.countSlot_mem (s : State) : s.countSlot.mem = s.mem := by
  cases h : s.fault <;> simp [State.countSlot, h]
@[simp] theorem State.countSlot_regs (s : State) : s.countSlot.regs = s.regs := by
  cases h : s.fault <;> simp [State.countSlot, h]
@[simp] theorem State.countSlot_regI (s : State) : s.countSlot.regI = s.regI := by
  cases h : s.fault <;> simp [State.countSlot, h]
@[simp] theorem State.countSlot_pc (s : State) : s.countSlot.pc = s.pc := by
  cases h : s.fault <;> simp [State.countSlot, h]
@[simp] theorem State.countSlot_stack (s : State) : s.countSlot.stack = s.stack := by
  cases h : s.fault <;> simp [State.countSlot, h]
@[simp] theorem State.countSlot_dt (s : State) : s.countSlot.dt = s.dt := by
  cases h : s.fault <;> simp [State.countSlot, h]
@[simp] theorem State.countSlot_st (s : State) : s.countSlot.st = s.st := by
  cases h : s.fault <;> simp [State.countSlot, h]
@[simp] theorem State.countSlot_keys (s : State) : s.countSlot.keys = s.keys := by
  cases h : s.fault <;> simp [State.countSlot, h]
@[simp] theorem State.countSlot_disp (s : State) : s.countSlot.disp = s.disp := by
  cases h : s.fault <;> simp [State.countSlot, h]
@[simp] theorem State.countSlot_waiting (s : State) : s.countSlot.waiting = s.waiting := by
  cases h : s.fault <;> simp [State.countSlot, h]
@[simp] theorem State.countSlot_fault (s : State) : s.countSlot.fault = s.fault := by
  cases h : s.fault <;> simp [State.countSlot, h]
@[simp] theorem State.countSlot_clockSpeed (s : State) : s.countSlot.clockSpeed = s.clockSpeed := by
  cases h : s.fault <;> simp [State.countSlot, h]
@[simp] theorem State.countSlot_rngDraws (s : State) : s.countSlot.rngDraws = s.rngDraws := by
  cases h : s.fault <;> simp [State.countSlot, h]
@[simp] theorem State.countSlot_slot (s : State) : s.countSlot.slot = if s.fault.isSome then 0 else s.slot + 1 := by
  cases h : s.fault <;> simp [State.countSlot, h]

/-! ## Reading a register -/

@[simp] theorem State.getV_setV (s : State) (x y : Nibble) (b : Byte) :
    (s.setV x b).getV y = if x = y then b else s.getV y := by
  by_cases h : x = y
  · subst h; simp [State.getV]
  · have hn : x.toNat ≠ y.toNat := fun e => h (BitVec.eq_of_toNat_eq e)
    simp [State.getV, Vector.getElem_set_ne, hn, h]

/-- A register is read from `regs` alone. -/
theorem State.getV_congr {s t : State} (h : t.regs = s.regs) (x : Nibble) : t.getV x = s.getV x := by
  simp only [State.getV, h]

@[simp] theorem State.getV_advance (s : State) (y : Nibble) : State.getV s.advance y = s.getV y := State.getV_congr (by simp) y
@[simp] theorem State.getV_jumpTo (s : State) (a : Word) (y : Nibble) : State.getV (s.jumpTo a) y = s.getV y := State.getV_congr (by simp) y
@[simp] theorem State.getV_skipIf (s : State) (c : Bool) (y : Nibble) : State.getV (s.skipIf c) y = s.getV y := State.getV_congr (by simp) y
@[simp] theorem State.getV_rewind (s : State) (y : Nibble) : State.getV s.rewind y = s.getV y := State.getV_congr (by simp) y
@[simp] theorem State.getV_push (s : State) (a : Word) (y : Nibble) : State.getV (s.push a) y = s.getV y := State.getV_congr (by simp) y
@[simp] theorem State.getV_raise (s : State) (a : Word) (k : FaultKind) (op : Option Word) (info : Option Nat) (y : Nibble) : State.getV (raise s a k op info) y = s.getV y := State.getV_congr (by simp) y
@[simp] theorem State.getV_timerTick (s : State) (y : Nibble) : State.getV s.timerTick y = s.getV y := State.getV_congr (by simp) y
@[simp] theorem State.getV_endFrame (s : State) (y : Nibble) : State.getV s.endFrame y = s.getV y := State.getV_congr (by simp) y
@[simp] theorem State.getV_countSlot (s : State) (y : Nibble) : s.countSlot.getV y = s.getV y := State.getV_congr (by simp) y

@[simp] theorem State.getV_setFlagAndV (s : State) (x y : Nibble) (f : Bool) (b : Byte) :
    (s.setFlagAndV x f b).getV y = if x = y then b else if regVF = y then flagByte f else s.getV y := by
  simp [State.setFlagAndV, writeFlagAndResult, vfWriteOrder]

/-! ## Frames -/

theorem ChangesOnly.refl (ds : List Nibble) (ps : List Part) (s : State) : ChangesOnly ds ps s s :=
  ⟨fun _ _ => rfl, fun p _ => by cases p <;> simp [Part.Same]⟩

/-- A frame may be widened. -/
theorem ChangesOnly.mono {ds ds' : List Nibble} {ps ps' : List Part} {s t : State} (h : ChangesOnly ds ps s t)
    (hd : ds ⊆ ds') (hp : ps ⊆ ps') : ChangesOnly ds' ps' s t :=
  ⟨fun r hr => h.1 r fun hm => hr (hd hm), fun p hm => h.2 p fun hm' => hm (hp hm')⟩

/-- Writing one register changes that register only. -/
theorem ChangesOnly.setV (s : State) (x : Nibble) (b : Byte) : ChangesOnly [x] [] s (s.setV x b) := by
  refine ⟨fun r hr => ?_, fun p _ => by cases p <;> simp [Part.Same, State.key]⟩
  have : x ≠ r := fun h => hr (by simp [h])
  simp [this]

/-- Flag and result change VF and the destination only. -/
theorem ChangesOnly.setFlagAndV (s : State) (x : Nibble) (f : Bool) (b : Byte) :
    ChangesOnly [x, regVF] [] s (s.setFlagAndV x f b) := by
  refine ⟨fun r hr => ?_, fun p _ => by cases p <;> simp [Part.Same, State.key]⟩
  simp only [List.mem_cons, List.not_mem_nil, or_false, not_or] at hr
  have hF : 15#4 ≠ r := Ne.symm hr.2
  simp [Ne.symm hr.1, hF]

end Sys2Proof.Machine
end

