-- ==== Sys2Proof/Laws/Display.lean ====
section
/-! SUPPORT. Laws/Display.lean: what the compositor does to each pixel and to the collision flag: it toggles the pixels its sprite hits, each once (spec/44_display.md R191, R192). -/

namespace Sys2Proof.Machine

/-! ## One pixel -/

@[simp] theorem pixel_setPixel (d : Display) (row row' : Fin 32) (col col' : Fin 64) (on : Bool) :
    pixel (setPixel d row col on) row' col' = if row = row' ∧ col = col' then on else pixel d row' col' := by
  simp only [pixel, setPixel, Vector.get_eq_getElem]
  by_cases hr : row = row'
  · subst hr
    by_cases hc : col = col'
    · subst hc; simp
    · have : col.val ≠ col'.val := fun e => hc (Fin.ext e)
      simp [hc, Vector.getElem_set_ne, this]
  · have : row.val ≠ row'.val := fun e => hr (Fin.ext e)
    simp [hr, Vector.getElem_set_ne, this]

@[simp] theorem pixel_blankDisplay (row : Fin 32) (col : Fin 64) : pixel blankDisplay row col = false := by
  simp [pixel, blankDisplay, Vector.get_eq_getElem]

/-- Two displays with the same pixels are the same. -/
theorem Display.ext {d e : Display} (h : ∀ r c, pixel d r c = pixel e r c) : d = e := by
  apply Vector.ext
  intro r hr
  apply Vector.ext
  intro c hc
  simpa [pixel, Vector.get_eq_getElem] using h ⟨r, hr⟩ ⟨c, hc⟩

/-! ## A sprite as the list of pixels it hits -/

/-- The pixels one row of a sprite hits, in the order they are drawn. -/
def hitsOfByte (row : Fin 32) (x : Nat) (byte : Byte) : List Nat → List (Fin 32 × Fin 64)
  | [] => []
  | b :: bs => if byte.getLsbD (7 - b) then (row, wrapCol x b) :: hitsOfByte row x byte bs else hitsOfByte row x byte bs

/-- The pixels a sprite hits from row `r` on. -/
def hitsFrom (x y : Nat) : Nat → List Byte → List (Fin 32 × Fin 64)
  | _, [] => []
  | r, byte :: rest => hitsOfByte (wrapRow y r) x byte (List.range 8) ++ hitsFrom x y (r + 1) rest

/-- Toggle a list of pixels. -/
def toggleAll (ps : List (Fin 32 × Fin 64)) (c : Canvas) : Canvas := ps.foldl (fun c p => toggle p.1 p.2 c) c

theorem drawBits_eq (row : Fin 32) (x : Nat) (byte : Byte) (bs : List Nat) (c : Canvas) :
    drawBits row x byte bs c = toggleAll (hitsOfByte row x byte bs) c := by
  induction bs generalizing c with
  | nil => rfl
  | cons b bs ih =>
    simp only [drawBits, hitsOfByte, ih]
    split <;> rfl

theorem drawRows_eq (x y r : Nat) (rows : List Byte) (c : Canvas) :
    drawRows x y r rows c = toggleAll (hitsFrom x y r rows) c := by
  induction rows generalizing r c with
  | nil => rfl
  | cons byte rest ih => simp [drawRows, hitsFrom, ih, drawBits_eq, toggleAll]

theorem mem_hitsOfByte {row : Fin 32} {x : Nat} {byte : Byte} {bs : List Nat} {p : Fin 32 × Fin 64} :
    p ∈ hitsOfByte row x byte bs ↔ ∃ b ∈ bs, byte.getLsbD (7 - b) = true ∧ p = (row, wrapCol x b) := by
  induction bs with
  | nil => simp [hitsOfByte]
  | cons b bs ih =>
    unfold hitsOfByte
    split <;> rename_i hb <;> simp [ih, hb]

theorem mem_hitsFrom {x y r : Nat} {rows : List Byte} {p : Fin 32 × Fin 64} :
    p ∈ hitsFrom x y r rows ↔ ∃ k b : Nat, ∃ byte : Byte, rows[k]? = some byte ∧ b < 8 ∧
      byte.getLsbD (7 - b) = true ∧ p = (wrapRow y (r + k), wrapCol x b) := by
  induction rows generalizing r with
  | nil => simp [hitsFrom]
  | cons byte rest ih =>
    simp only [hitsFrom, List.mem_append, mem_hitsOfByte, List.mem_range, ih]
    constructor
    · rintro (⟨b, hb, hbit, rfl⟩ | ⟨k, b, by', hk, hb, hbit, rfl⟩)
      · exact ⟨0, b, byte, by simp, hb, hbit, rfl⟩
      · exact ⟨k + 1, b, by', by simpa using hk, hb, hbit, by rw [Nat.add_assoc, Nat.add_comm 1 k]⟩
    · rintro ⟨k, b, by', hk, hb, hbit, rfl⟩
      cases k with
      | zero => left; simp only [List.getElem?_cons_zero, Option.some.injEq] at hk; subst hk; exact ⟨b, hb, hbit, rfl⟩
      | succ k =>
        right
        exact ⟨k, b, by', by simpa using hk, hb, hbit, by rw [Nat.add_assoc, Nat.add_comm 1 k]⟩

/-- The pixels hit are those of the rule. -/
theorem mem_hitsFrom_zero {x y : Nat} {rows : List Byte} {row : Fin 32} {col : Fin 64} :
    (row, col) ∈ hitsFrom x y 0 rows ↔ SpriteHits rows x y row col := by
  simp only [mem_hitsFrom, SpriteHits, Nat.zero_add, Prod.mk.injEq, wrapRow, wrapCol, Fin.ext_iff]

/-! ## No pixel is hit twice -/

theorem nodup_hitsOfByte (row : Fin 32) (x : Nat) (byte : Byte) (bs : List Nat) (hb : ∀ b ∈ bs, b < 8) (hn : bs.Nodup) :
    (hitsOfByte row x byte bs).Nodup := by
  induction bs with
  | nil => exact List.nodup_nil
  | cons b bs ih =>
    have ih := ih (fun c hc => hb c (by simp [hc])) (List.nodup_cons.mp hn).2
    unfold hitsOfByte
    split
    · refine List.nodup_cons.mpr ⟨fun hm => ?_, ih⟩
      obtain ⟨b', hb', _, he⟩ := mem_hitsOfByte.mp hm
      have h1 := hb b (by simp)
      have h2 := hb b' (by simp [hb'])
      have he : (x + b) % 64 = (x + b') % 64 := by simpa [wrapCol] using he
      have : b = b' := by omega
      subst this
      exact (List.nodup_cons.mp hn).1 hb'
    · exact ih

theorem nodup_hitsFrom (x y r : Nat) (rows : List Byte) (h : r + rows.length ≤ 32) : (hitsFrom x y r rows).Nodup := by
  induction rows generalizing r with
  | nil => exact List.nodup_nil
  | cons byte rest ih =>
    simp only [List.length_cons] at h
    refine List.Nodup.append (nodup_hitsOfByte _ _ _ _ (by simp) List.nodup_range) (ih (r + 1) (by omega)) ?_
    intro p hp hq
    obtain ⟨b, _, _, rfl⟩ := mem_hitsOfByte.mp hp
    obtain ⟨k, b', by', hk, _, _, he⟩ := mem_hitsFrom.mp hq
    have hk : k < rest.length := (List.getElem?_eq_some_iff.mp hk).1
    have he : (y + r) % 32 = (y + (r + 1 + k)) % 32 := by
      have := (Prod.mk.injEq _ _ _ _ ▸ he).1
      simpa [wrapRow] using this
    omega

/-! ## What toggling a list of pixels does -/

theorem toggleAll_pixel (ps : List (Fin 32 × Fin 64)) (hn : ps.Nodup) (c : Canvas) (row : Fin 32) (col : Fin 64) :
    pixel (toggleAll ps c).disp row col = if (row, col) ∈ ps then !pixel c.disp row col else pixel c.disp row col := by
  induction ps generalizing c with
  | nil => simp [toggleAll]
  | cons p ps ih =>
    have hp := List.nodup_cons.mp hn
    have ih := ih hp.2 (toggle p.1 p.2 c)
    simp only [toggleAll, List.foldl_cons] at ih ⊢
    rw [ih]
    by_cases h : p = (row, col)
    · subst h
      simp [hp.1, toggle]
    · have h1 : ¬(p.1 = row ∧ p.2 = col) := fun e => h (Prod.ext e.1 e.2)
      have h2 : (row, col) ≠ p := fun e => h e.symm
      simp [toggle, h1, h2]

theorem toggleAll_collision (ps : List (Fin 32 × Fin 64)) (hn : ps.Nodup) (c : Canvas) :
    (toggleAll ps c).collision = true ↔ c.collision = true ∨ ∃ p ∈ ps, pixel c.disp p.1 p.2 = true := by
  induction ps generalizing c with
  | nil => simp [toggleAll]
  | cons p ps ih =>
    have hp := List.nodup_cons.mp hn
    have ih := ih hp.2 (toggle p.1 p.2 c)
    simp only [toggleAll, List.foldl_cons] at ih ⊢
    rw [ih]
    have hother : ∀ q ∈ ps, pixel (toggle p.1 p.2 c).disp q.1 q.2 = pixel c.disp q.1 q.2 := by
      intro q hq
      have h1 : ¬(p.1 = q.1 ∧ p.2 = q.2) := fun e => hp.1 (Prod.ext e.1 e.2 ▸ hq)
      simp [toggle, h1]
    constructor
    · rintro (h | ⟨q, hq, hon⟩)
      · rcases (by simpa [toggle] using h : c.collision = true ∨ pixel c.disp p.1 p.2 = true) with h | h
        · exact .inl h
        · exact .inr ⟨p, by simp, h⟩
      · exact .inr ⟨q, by simp [hq], hother q hq ▸ hon⟩
    · rintro (h | ⟨q, hq, hon⟩)
      · exact .inl (by simp [toggle, h])
      · rcases List.mem_cons.mp hq with rfl | hq
        · exact .inl (by simp [toggle, hon])
        · exact .inr ⟨q, hq, (hother q hq).symm ▸ hon⟩

/-! ## The compositor -/

/-- Every pixel the sprite hits is toggled. -/
theorem drawSprite_pixel_of_hit (d : Display) (rows : List Byte) (x y : Nat) (hl : rows.length ≤ 32) {row : Fin 32}
    {col : Fin 64} (h : SpriteHits rows x y row col) :
    pixel (drawSprite d rows x y).disp row col = !pixel d row col := by
  rw [drawSprite, drawRows_eq, toggleAll_pixel _ (nodup_hitsFrom x y 0 rows (by omega))]
  simp [mem_hitsFrom_zero.mpr h]

/-- Every other pixel is as before. -/
theorem drawSprite_pixel_of_miss (d : Display) (rows : List Byte) (x y : Nat) (hl : rows.length ≤ 32) {row : Fin 32}
    {col : Fin 64} (h : ¬SpriteHits rows x y row col) :
    pixel (drawSprite d rows x y).disp row col = pixel d row col := by
  rw [drawSprite, drawRows_eq, toggleAll_pixel _ (nodup_hitsFrom x y 0 rows (by omega))]
  simp [mt mem_hitsFrom_zero.mp h]

/-- The collision flag says whether some pixel went from on to off. -/
theorem drawSprite_collision (d : Display) (rows : List Byte) (x y : Nat) (hl : rows.length ≤ 32) :
    (drawSprite d rows x y).collision = true ↔ ∃ row col, SpriteHits rows x y row col ∧ pixel d row col = true := by
  rw [drawSprite, drawRows_eq, toggleAll_collision _ (nodup_hitsFrom x y 0 rows (by omega))]
  constructor
  · rintro (h | ⟨⟨row, col⟩, hp, hon⟩)
    · cases h
    · exact ⟨row, col, mem_hitsFrom_zero.mp hp, hon⟩
  · rintro ⟨row, col, hp, hon⟩
    exact .inr ⟨(row, col), mem_hitsFrom_zero.mpr hp, hon⟩

end Sys2Proof.Machine
end

