-- ==== Sys2Proof/Laws/Encoding.lean ====
section
/-! SUPPORT. Laws/Encoding.lean: the bits of a word written as a pattern, and the fields read from it (spec/30_encoding.md R71, R73). -/

namespace Sys2Proof

variable (a b c d : Nibble) (k : Byte) (n : Addr)

/-! ## Bits of the three shapes of pattern -/

theorem getLsbD_nibbles (i : Nat) : BitVec.getLsbD (a ++ b ++ c ++ d : Word) i =
    if i < 4 then d.getLsbD i else if i < 8 then c.getLsbD (i - 4)
    else if i < 12 then b.getLsbD (i - 8) else a.getLsbD (i - 12) := by
  show BitVec.getLsbD (a ++ b ++ c ++ d : BitVec (4 + 4 + 4 + 4)) i = _
  simp only [BitVec.getLsbD_append, Nat.sub_sub]
  split_ifs <;> first | rfl | omega

theorem getLsbD_byte (i : Nat) : BitVec.getLsbD (a ++ b ++ k : Word) i =
    if i < 8 then k.getLsbD i else if i < 12 then b.getLsbD (i - 8) else a.getLsbD (i - 12) := by
  show BitVec.getLsbD (a ++ b ++ k : BitVec (4 + 4 + 8)) i = _
  simp only [BitVec.getLsbD_append, Nat.sub_sub]
  split_ifs <;> first | rfl | omega

theorem getLsbD_addr (i : Nat) : BitVec.getLsbD (a ++ n : Word) i =
    if i < 12 then n.getLsbD i else a.getLsbD (i - 12) := by
  show BitVec.getLsbD (a ++ n : BitVec (4 + 12)) i = _
  simp only [BitVec.getLsbD_append]

/-! ## Fields of a pattern -/

@[simp] theorem fieldClass_nibbles : fieldClass (a ++ b ++ c ++ d : Word) = a := by
  apply BitVec.eq_of_getLsbD_eq; intro i hi
  simp only [fieldClass, BitVec.getLsbD_extractLsb', getLsbD_nibbles]
  interval_cases i <;> simp

@[simp] theorem fieldX_nibbles : fieldX (a ++ b ++ c ++ d : Word) = b := by
  apply BitVec.eq_of_getLsbD_eq; intro i hi
  simp only [fieldX, BitVec.getLsbD_extractLsb', getLsbD_nibbles]
  interval_cases i <;> simp

@[simp] theorem fieldY_nibbles : fieldY (a ++ b ++ c ++ d : Word) = c := by
  apply BitVec.eq_of_getLsbD_eq; intro i hi
  simp only [fieldY, BitVec.getLsbD_extractLsb', getLsbD_nibbles]
  interval_cases i <;> simp

@[simp] theorem fieldN_nibbles : fieldN (a ++ b ++ c ++ d : Word) = d := by
  apply BitVec.eq_of_getLsbD_eq; intro i hi
  simp only [fieldN, BitVec.getLsbD_extractLsb', getLsbD_nibbles]
  interval_cases i <;> simp

@[simp] theorem fieldClass_byte : fieldClass (a ++ b ++ k : Word) = a := by
  apply BitVec.eq_of_getLsbD_eq; intro i hi
  simp only [fieldClass, BitVec.getLsbD_extractLsb', getLsbD_byte]
  interval_cases i <;> simp

@[simp] theorem fieldX_byte : fieldX (a ++ b ++ k : Word) = b := by
  apply BitVec.eq_of_getLsbD_eq; intro i hi
  simp only [fieldX, BitVec.getLsbD_extractLsb', getLsbD_byte]
  interval_cases i <;> simp

@[simp] theorem fieldKK_byte : fieldKK (a ++ b ++ k : Word) = k := by
  apply BitVec.eq_of_getLsbD_eq; intro i hi
  simp only [fieldKK, BitVec.getLsbD_extractLsb', getLsbD_byte]
  interval_cases i <;> simp

@[simp] theorem fieldClass_addr : fieldClass (a ++ n : Word) = a := by
  apply BitVec.eq_of_getLsbD_eq; intro i hi
  simp only [fieldClass, BitVec.getLsbD_extractLsb', getLsbD_addr]
  interval_cases i <;> simp

@[simp] theorem fieldNNN_addr : fieldNNN (a ++ n : Word) = n := by
  apply BitVec.eq_of_getLsbD_eq; intro i hi
  simp only [fieldNNN, BitVec.getLsbD_extractLsb', getLsbD_addr]
  interval_cases i <;> simp

/-! ## A word from its fields -/

theorem nibbles_eta (w : Word) : (fieldClass w ++ fieldX w ++ fieldY w ++ fieldN w : Word) = w := by
  apply BitVec.eq_of_getLsbD_eq; intro i hi
  rw [getLsbD_nibbles]
  simp only [fieldClass, fieldX, fieldY, fieldN, BitVec.getLsbD_extractLsb']
  interval_cases i <;> simp

theorem byte_eta (w : Word) : (fieldClass w ++ fieldX w ++ fieldKK w : Word) = w := by
  apply BitVec.eq_of_getLsbD_eq; intro i hi
  rw [getLsbD_byte]
  simp only [fieldClass, fieldX, fieldKK, BitVec.getLsbD_extractLsb']
  interval_cases i <;> simp

theorem addr_eta (w : Word) : (fieldClass w ++ fieldNNN w : Word) = w := by
  apply BitVec.eq_of_getLsbD_eq; intro i hi
  rw [getLsbD_addr]
  simp only [fieldClass, fieldNNN, BitVec.getLsbD_extractLsb']
  interval_cases i <;> simp

/-- The byte at the lower address counts 256 times (R54, R101). -/
theorem wordOfBytes_toNat (hi lo : Byte) : (wordOfBytes hi lo).toNat = hi.toNat * 256 + lo.toNat := by
  have hl := lo.isLt
  show (hi ++ lo : BitVec (8 + 8)).toNat = _
  rw [BitVec.toNat_append, Nat.shiftLeft_eq, Nat.mul_comm, ← Nat.two_pow_add_eq_or_of_lt hl]

/-- The word of a word's bytes is that word. -/
@[simp] theorem wordOfBytes_of_word (w : Word) : wordOfBytes (w.extractLsb' 8 8) (w.extractLsb' 0 8) = w := by
  apply BitVec.eq_of_getLsbD_eq; intro i hi
  show BitVec.getLsbD (w.extractLsb' 8 8 ++ w.extractLsb' 0 8 : BitVec (8 + 8)) i = _
  simp only [BitVec.getLsbD_append, BitVec.getLsbD_extractLsb']
  interval_cases i <;> simp

/-- Decoding the bytes of an instruction decodes its word, and hands the rest back. -/
theorem decodeBytes_encodeBytes (i : Instr) (rest : List Byte) :
    decodeBytes (encodeBytes i ++ rest) = .ok (decodeWord (encode i), rest) := by
  simp [encodeBytes, bytesOfWord, decodeBytes]

end Sys2Proof
end

