-- ==== Sys2Proof/Laws/Memory.lean ====
section
/-! SUPPORT. Laws/Memory.lean: what reading gives after writing, and that every write keeps memory's canonical form (spec/20_memory.md R50-R62). -/

namespace Sys2Proof.Machine

/-! ## Reading after writing -/

theorem readByte_insertCell (c : Host.Cell) (m : Memory) (a : Nat) (h : ∀ d ∈ m, d.1 ≠ c.1) :
    readByte (insertCell c m) a = if c.1 = a then c.2 else readByte m a := by
  induction m with
  | nil => rfl
  | cons d rest ih =>
    have hd : d.1 ≠ c.1 := h d (by simp)
    have ih := ih fun e he => h e (by simp [he])
    unfold insertCell
    split
    · rfl
    · simp only [readByte, ih]
      by_cases hda : d.1 = a
      · have hca : c.1 ≠ a := fun e => hd (hda.trans e.symm)
        simp [hda, hca]
      · simp [hda]

theorem readByte_filter (m : Memory) (a b : Nat) :
    readByte (m.filter fun c => c.1 != a) b = if a = b then resetByte b else readByte m b := by
  induction m with
  | nil => simp [readByte]
  | cons d rest ih =>
    by_cases hd : d.1 = a
    · have e : ((d :: rest).filter fun c => c.1 != a) = rest.filter fun c => c.1 != a := by simp [hd]
      rw [e, ih]
      by_cases hab : a = b
      · simp [hab]
      · have : d.1 ≠ b := fun e => hab (hd.symm.trans e)
        simp [hab, readByte, this]
    · have e : ((d :: rest).filter fun c => c.1 != a) = d :: rest.filter fun c => c.1 != a := by simp [hd]
      rw [e]
      simp only [readByte, ih]
      by_cases hab : a = b
      · have : d.1 ≠ b := fun e => hd (e.trans hab.symm)
        simp [hab, this]
      · simp [hab]

/-- A read after a write to the same address gives the byte written; every other address reads as before. -/
@[simp] theorem readByte_writeByte (m : Memory) (a : Nat) (v : Byte) (b : Nat) :
    readByte (writeByte m a v) b = if a = b then v else readByte m b := by
  unfold writeByte
  split
  · rename_i hv
    rw [readByte_filter]
    by_cases hab : a = b
    · subst hab; simp [hv]
    · simp [hab]
  · rw [readByte_insertCell _ _ _ (by simp), readByte_filter]
    by_cases hab : a = b <;> simp [hab]

/-- Bytes written from `a` on read back, and every other address reads as before. -/
theorem readByte_writeBytes (m : Memory) (a : Nat) (bs : List Byte) (b : Nat) :
    readByte (writeBytes m a bs) b = if a ≤ b then (bs[b - a]?).getD (readByte m b) else readByte m b := by
  induction bs generalizing m a with
  | nil => simp [writeBytes]
  | cons v bs ih =>
    simp only [writeBytes, ih, readByte_writeByte]
    by_cases hab : a = b
    · subst hab
      have : ¬ a + 1 ≤ a := by omega
      simp [this]
    · by_cases hlt : a ≤ b
      · have h1 : a + 1 ≤ b := by omega
        have h2 : b - a = (b - (a + 1)) + 1 := by omega
        simp [hab, hlt, h1, h2]
      · have h1 : ¬ a + 1 ≤ b := by omega
        simp [hab, hlt, h1]

/-- An address outside the bytes written reads as before. -/
theorem readByte_writeBytes_of_outside (m : Memory) (a : Nat) (bs : List Byte) (b : Nat)
    (h : b < a ∨ a + bs.length ≤ b) : readByte (writeBytes m a bs) b = readByte m b := by
  rw [readByte_writeBytes]
  rcases h with h | h
  · simp [Nat.not_le.mpr h]
  · have : bs.length ≤ b - a := by omega
    simp [List.getElem?_eq_none this]

@[simp] theorem length_readBytes (m : Memory) (a n : Nat) : (readBytes m a n).length = n := by
  induction n generalizing a with
  | zero => rfl
  | succ n ih => simp [readBytes, ih]

/-- The bytes of a range, one by one. -/
theorem getElem?_readBytes (m : Memory) (a n k : Nat) :
    (readBytes m a n)[k]? = if k < n then some (readByte m (a + k)) else none := by
  induction n generalizing a k with
  | zero => simp [readBytes]
  | succ n ih =>
    cases k with
    | zero => simp [readBytes]
    | succ k => simp [readBytes, ih, Nat.add_assoc, Nat.add_comm 1 k]

/-- Reading back the bytes just written. -/
theorem readBytes_writeBytes (m : Memory) (a : Nat) (bs : List Byte) :
    readBytes (writeBytes m a bs) a bs.length = bs := by
  apply List.ext_getElem?
  intro k
  rw [getElem?_readBytes, readByte_writeBytes]
  by_cases hk : k < bs.length
  · simp [hk]
  · simp [hk]

/-! ## The canonical form -/

theorem Memory.wf_nil : Memory.wf [] := by simp [Memory.wf]

theorem mem_insertCell {c d : Host.Cell} {m : Memory} : d ∈ insertCell c m ↔ d = c ∨ d ∈ m := by
  induction m with
  | nil => simp [insertCell]
  | cons e rest ih =>
    unfold insertCell
    split
    · simp
    · simp only [List.mem_cons, ih]; tauto

theorem pairwise_insertCell {c : Host.Cell} {m : Memory} (hm : m.Pairwise (fun d e => d.1 < e.1))
    (hc : ∀ d ∈ m, d.1 ≠ c.1) : (insertCell c m).Pairwise (fun d e => d.1 < e.1) := by
  induction m with
  | nil => simp [insertCell]
  | cons d rest ih =>
    have hd := hc d (by simp)
    rw [List.pairwise_cons] at hm
    unfold insertCell
    split
    · rename_i hlt
      rw [List.pairwise_cons, List.pairwise_cons]
      refine ⟨fun e he => ?_, hm⟩
      rcases List.mem_cons.mp he with rfl | he
      · exact hlt
      · exact Nat.lt_trans hlt (hm.1 e he)
    · rename_i hnlt
      rw [List.pairwise_cons]
      refine ⟨fun e he => ?_, ih hm.2 fun e he => hc e (by simp [he])⟩
      rcases mem_insertCell.mp he with rfl | he
      · omega
      · exact hm.1 e he

/-- A write inside the memory keeps the canonical form. -/
theorem Memory.wf_writeByte {m : Memory} (h : Memory.wf m) {a : Nat} (ha : a < Config.memSize) (v : Byte) :
    Memory.wf (writeByte m a v) := by
  have hf : Memory.wf (m.filter fun c => c.1 != a) :=
    ⟨h.1.filter _, fun c hc => h.2 c (List.mem_of_mem_filter hc)⟩
  unfold writeByte
  split
  · exact hf
  · rename_i hv
    refine ⟨pairwise_insertCell hf.1 (by simp), fun c hc => ?_⟩
    rcases mem_insertCell.mp hc with rfl | hc
    · exact ⟨ha, hv⟩
    · exact hf.2 c hc

/-- A run of writes inside the memory keeps the canonical form. -/
theorem Memory.wf_writeBytes {m : Memory} (h : Memory.wf m) {a : Nat} {bs : List Byte}
    (ha : a + bs.length ≤ Config.memSize) : Memory.wf (writeBytes m a bs) := by
  induction bs generalizing m a with
  | nil => exact h
  | cons v bs ih =>
    simp only [List.length_cons] at ha
    exact ih (Memory.wf_writeByte h (by omega) v) (by omega)

theorem readByte_of_lt {m : Memory} {a : Nat} (h : ∀ d ∈ m, a < d.1) : readByte m a = resetByte a := by
  induction m with
  | nil => rfl
  | cons d rest ih =>
    have hd : d.1 ≠ a := by have := h d (by simp); omega
    simp only [readByte, hd, if_false]
    exact ih fun e he => h e (by simp [he])

/-- The form is canonical: two memories of that form that read alike everywhere are equal. -/
theorem Memory.ext_of_wf {m n : Memory} (hm : Memory.wf m) (hn : Memory.wf n)
    (h : ∀ a, readByte m a = readByte n a) : m = n := by
  induction m generalizing n with
  | nil =>
    cases n with
    | nil => rfl
    | cons d rest =>
      exact absurd (by simpa [readByte] using (h d.1).symm) (hn.2 d (by simp)).2
  | cons c ms ih =>
    cases n with
    | nil => exact absurd (by simpa [readByte] using h c.1) (hm.2 c (by simp)).2
    | cons d ns =>
      have hm1 := List.pairwise_cons.mp hm.1
      have hn1 := List.pairwise_cons.mp hn.1
      have hcd : c.1 = d.1 := by
        rcases Nat.lt_trichotomy c.1 d.1 with hlt | he | hlt
        · have hr : readByte (d :: ns) c.1 = resetByte c.1 := readByte_of_lt fun e he => by
            rcases List.mem_cons.mp he with rfl | he
            · exact hlt
            · exact Nat.lt_trans hlt (hn1.1 e he)
          exact absurd (by rw [← hr, ← h c.1]; simp [readByte]) (hm.2 c (by simp)).2
        · exact he
        · have hr : readByte (c :: ms) d.1 = resetByte d.1 := readByte_of_lt fun e he => by
            rcases List.mem_cons.mp he with rfl | he
            · exact hlt
            · exact Nat.lt_trans hlt (hm1.1 e he)
          exact absurd (by rw [← hr, h d.1]; simp [readByte]) (hn.2 d (by simp)).2
      have hv : c.2 = d.2 := by simpa [readByte, hcd] using h c.1
      have hcons : c = d := Prod.ext hcd hv
      subst hcons
      congr 1
      refine ih ⟨hm1.2, fun e he => hm.2 e (by simp [he])⟩ ⟨hn1.2, fun e he => hn.2 e (by simp [he])⟩ fun a => ?_
      by_cases ha : c.1 = a
      · subst ha
        rw [readByte_of_lt hm1.1, readByte_of_lt hn1.1]
      · simpa [readByte, ha] using h a

end Sys2Proof.Machine
end

