-- ==== Sys2Proof/Laws/Ops.lean ====
section
/-! SUPPORT. Laws/Ops.lean: one lemma per shared operation that says everything it can do: the stack, faults, bounds, key skips, register ranges, keys, timers, the frame's moves. -/

namespace Sys2Proof.Machine

/-! ## Stack (R10, R26) -/

theorem State.pop?_of_empty {s : State} (h : s.stack = []) : s.pop? = none := by simp [State.pop?, h]

theorem State.pop?_append {s : State} {rest : List Word} {a : Word} (h : s.stack = rest ++ [a]) :
    s.pop? = some (a, { s with stack := rest }) := by
  have h1 : s.stack.getLast? = some a := by simp [h]
  have h2 : s.stack.dropLast = rest := by simp [h]
  simp [State.pop?, h1, h2]

/-- A stack is empty or has a top. -/
theorem stack_cases (l : List Word) : l = [] ∨ ∃ rest a, l = rest ++ [a] := by
  rcases List.eq_nil_or_concat l with h | ⟨rest, a, h⟩
  · exact .inl h
  · exact .inr ⟨rest, a, by simpa using h⟩

/-! ## Faults (R104, R230) -/

@[simp] theorem raiseIn_fault (s : State) (i : Instr) (k : FaultKind) (info : Option Nat) :
    (raiseIn s i k info).fault = some ⟨k, s.pc - 2, some (encode i), info⟩ := rfl

@[simp] theorem raiseIn_pc (s : State) (i : Instr) (k : FaultKind) (info : Option Nat) :
    (raiseIn s i k info).pc = s.pc - 2 := rfl

/-- Raising in an instruction writes the record and puts `pc` back, and changes nothing else. -/
theorem raised_raiseIn (s : State) (i : Instr) (k : FaultKind) (info : Option Nat) :
    Raised s (raiseIn s i k info) k (encode i) info := by
  refine ⟨rfl, rfl, fun r _ => rfl, fun p hp => ?_⟩
  cases p <;> first | (simp at hp; done) | simp [Part.Same, raiseIn, State.key]

/-! ## Bounds (R52) -/

theorem State.accessInBounds_iff (s : State) (count : Nat) :
    s.accessInBounds count = true ↔ count = 0 ∨ s.regI.toNat + count ≤ 4096 := by
  simp only [State.accessInBounds, Bool.or_eq_true, beq_iff_eq, decide_eq_true_eq]
  simp only [State.lastAddress, State.base, Config.memSize]
  omega

/-- An access inside the memory happens. -/
theorem checkedAccess_of_inBounds {i : Instr} {count : Nat} {s : State} {act : State → State}
    (h : count = 0 ∨ s.regI.toNat + count ≤ 4096) : checkedAccess i count s act = .next (act s) := by
  rw [checkedAccess, if_pos ((s.accessInBounds_iff count).mpr h)]

/-- An access that reaches 4096 raises `MemoryOutOfBounds` with the highest address, and does nothing else. -/
theorem checkedAccess_of_outOfBounds {i : Instr} {count : Nat} {s : State} {act : State → State}
    (h0 : count ≠ 0) (h : 4096 < s.regI.toNat + count) :
    checkedAccess i count s act = .next (raiseIn s i .memoryOutOfBounds (some (s.regI.toNat + count - 1))) := by
  have hn : ¬(count = 0 ∨ s.regI.toNat + count ≤ 4096) := by omega
  rw [checkedAccess, if_neg (mt (s.accessInBounds_iff count).mp hn)]
  rfl

/-- A checked access always answers a next state: the access, or the fault. -/
theorem checkedAccess_cases (i : Instr) (count : Nat) (s : State) (act : State → State) :
    checkedAccess i count s act = .next (act s) ∧ (count = 0 ∨ s.regI.toNat + count ≤ 4096) ∨
      checkedAccess i count s act = .next (raiseIn s i .memoryOutOfBounds (some (s.regI.toNat + count - 1))) ∧
        count ≠ 0 ∧ 4096 < s.regI.toNat + count := by
  by_cases h : count = 0 ∨ s.regI.toNat + count ≤ 4096
  · exact .inl ⟨checkedAccess_of_inBounds h, h⟩
  · exact .inr ⟨checkedAccess_of_outOfBounds (by omega) (by omega), by omega, by omega⟩

/-! ## Key skips (R213, R214, R233) -/

theorem keySkip_of_lt {i : Instr} {v : Byte} {wanted : Bool} {s : State} (h : v.toNat < 16) :
    keySkip i v wanted s = .next (s.skipIf (s.key ⟨v.toNat, h⟩ == wanted)) := by rw [keySkip, dif_pos h]

theorem keySkip_of_ge {i : Instr} {v : Byte} {wanted : Bool} {s : State} (h : 16 ≤ v.toNat) :
    keySkip i v wanted s = .next (raiseIn s i .keyIndexOutOfRange (some v.toNat)) := by
  rw [keySkip, dif_neg (by omega)]

/-! ## Register ranges (R174, R175) -/

/-- The registers as a list: `V[k]` stands at place `k`. -/
theorem getElem?_regs (s : State) (k : Nat) :
    s.regs.toList[k]? = if k < 16 then some (s.getV (BitVec.ofNat 4 k)) else none := by
  by_cases h : k < 16
  · have hk : (BitVec.ofNat 4 k).toNat = k := by simp only [BitVec.toNat_ofNat]; omega
    simp [h, State.getV, Nat.mod_eq_of_lt h]
  · simp [h]

/-- `V0..Vx` as a list, `x` included: `V[r]` stands at place `r` (R174). -/
theorem getElem?_take_regs (s : State) {x r : Nibble} (h : r.toNat ≤ x.toNat) :
    (s.regs.toList.take (x.toNat + 1))[r.toNat]? = some (s.getV r) := by
  have := r.isLt
  rw [List.getElem?_take, getElem?_regs]
  simp; omega

theorem getElem_setRegsFrom (regs : Vector Byte 16) (k : Nat) (bs : List Byte) (j : Nat) (hj : j < 16) :
    (setRegsFrom regs k bs)[j] = if k ≤ j then (bs[j - k]?).getD regs[j] else regs[j] := by
  induction bs generalizing regs k with
  | nil => simp [setRegsFrom]
  | cons b bs ih =>
    simp only [setRegsFrom, ih]
    by_cases hkj : k = j
    · subst hkj
      have h1 : ¬ k + 1 ≤ k := by omega
      simp [h1]
    · by_cases hlt : k ≤ j
      · have h1 : k + 1 ≤ j := by omega
        have h2 : j - k = (j - (k + 1)) + 1 := by omega
        simp [h1, hlt, h2, hkj]
      · have h1 : ¬ k + 1 ≤ j := by omega
        simp [h1, hlt, hkj]

/-- Loading `count` bytes from the first register on: registers below `count` take the bytes, the others stay (R175). -/
theorem getV_setRegsFrom (s : State) (a count : Nat) (r : Nibble) :
    State.getV { s with regs := setRegsFrom s.regs 0 (readBytes s.mem a count) } r =
      if r.toNat < count then readByte s.mem (a + r.toNat) else s.getV r := by
  have h : (setRegsFrom s.regs 0 (readBytes s.mem a count))[r.toNat]'r.isLt =
      ((readBytes s.mem a count)[r.toNat]?).getD (s.getV r) := by
    rw [getElem_setRegsFrom _ _ _ _ r.isLt]; simp [State.getV]
  rw [State.getV, h, getElem?_readBytes]
  split <;> rfl

/-! ## Keys (R215) -/

/-- The lowest-indexed pressed key: it is pressed, and no lower one is. -/
theorem State.lowestKey_eq_some {s : State} {k : Nat} :
    s.lowestKey = some k ↔ ∃ h : k < 16, s.key ⟨k, h⟩ = true ∧ ∀ j (hj : j < k), s.key ⟨j, Nat.lt_trans hj h⟩ = false := by
  simp only [State.lowestKey, List.findIdx?_eq_some_iff_getElem, State.key, Vector.get_eq_getElem, Vector.length_toList,
    Vector.getElem_toList, Bool.not_eq_true]

theorem State.lowestKey_eq_none {s : State} : s.lowestKey = none ↔ ∀ k : Fin 16, s.key k = false := by
  simp only [State.lowestKey, List.findIdx?_eq_none_iff, State.key, Vector.get_eq_getElem, Vector.mem_toList_iff]
  constructor
  · intro h k
    exact h _ (Vector.getElem_mem k.isLt)
  · intro h x hx
    obtain ⟨i, hi, rfl⟩ := Vector.mem_iff_getElem.mp hx
    exact h ⟨i, hi⟩

/-! ## Targets and timers -/

/-- The offset jump's target is the exact sum: it never wraps (R123, D6). -/
theorem State.offsetTarget_toNat (s : State) (nnn : Addr) : (s.offsetTarget nnn).toNat = nnn.toNat + (s.getV 0).toNat := by
  have h1 := nnn.isLt
  have h2 := (s.getV 0).isLt
  simp only [State.offsetTarget, BitVec.toNat_add, BitVec.toNat_setWidth]
  omega

/-- A tick takes 1 from a timer that is not 0 (R240). -/
theorem tickByte_toNat (t : Byte) : (tickByte t).toNat = t.toNat - 1 := by
  unfold tickByte
  split
  · rename_i h; subst h; rfl
  · rename_i h
    bv_omega

/-! ## The scheduler's moves (R100-R110) -/

theorem State.fetchInBounds_iff (s : State) : s.fetchInBounds = true ↔ s.pc.toNat ≤ 4094 := by
  simp [State.fetchInBounds]

theorem State.batchDone_iff (s : State) : s.batchDone = true ↔ s.clockSpeed / 60 ≤ s.slot ∨ 4094 < s.pc.toNat := by
  simp only [State.batchDone, Bool.or_eq_true, decide_eq_true_eq]
  simp [State.batchSize, State.halted]

/-- `execute_one` on a faulted machine changes nothing (R105). -/
theorem executeOne_of_fault {s : State} {r : FaultRecord} (h : s.fault = some r) : executeOne s = .next s := by
  simp [executeOne, h]

/-- `execute_one` inside the fetch bound advances `pc` and executes the decoded word (R100-R103). -/
theorem executeOne_of_fetch {s : State} (h : s.fault = none) (hpc : s.pc.toNat ≤ 4094) :
    executeOne s = exec (decodeWord s.fetchWord) s.advance := by
  simp [executeOne, h, s.fetchInBounds_iff.mpr hpc]

/-- `execute_one` past 4094 raises the fetch fault (R101, D24). -/
theorem executeOne_of_past {s : State} (h : s.fault = none) (hpc : 4094 < s.pc.toNat) :
    executeOne s = .next s.raiseFetch := by
  have : ¬ s.fetchInBounds = true := mt s.fetchInBounds_iff.mp (by omega)
  simp [executeOne, h, this]

/-- A stopped machine does not move (R105, R234). -/
theorem step_of_fault {s : State} {r : FaultRecord} (h : s.fault = some r) : step s = .fault (.stopped r) := by
  simp [step, schedulerMove, h]

/-- A frame whose batch is over ends with the tick (R106, R107, R109). -/
theorem step_of_batchDone {s : State} (h : s.fault = none) (hd : s.clockSpeed / 60 ≤ s.slot ∨ 4094 < s.pc.toNat) :
    step s = .next s.endFrame := by
  simp [step, schedulerMove, h, s.batchDone_iff.mpr hd]

end Sys2Proof.Machine
end

