-- ==== Sys2Proof/Laws/PerInstr.lean ====
section
/-! SUPPORT. Laws/PerInstr.lean: for each instruction, its word has the fixed bits of its row of spec/opcode_table.json (spec/30_encoding.md R73). The masks and values are copied from the table, not computed from the encoder. -/

namespace Sys2Proof.Laws.TableBits

/-- The row's `mask`: the bits the table fixes. -/
def rowMask : Instr → Word
  | .cls => 0xFFFF
  | .ret => 0xFFFF
  | .jp _ => 0xF000
  | .call _ => 0xF000
  | .seByte _ _ => 0xF000
  | .sneByte _ _ => 0xF000
  | .seReg _ _ _ => 0xF000
  | .ldByte _ _ => 0xF000
  | .addByte _ _ => 0xF000
  | .ldReg _ _ => 0xF00F
  | .orReg _ _ => 0xF00F
  | .andReg _ _ => 0xF00F
  | .xorReg _ _ => 0xF00F
  | .addReg _ _ => 0xF00F
  | .subReg _ _ => 0xF00F
  | .shr _ _ => 0xF00F
  | .subnReg _ _ => 0xF00F
  | .shl _ _ => 0xF00F
  | .sneReg _ _ _ => 0xF000
  | .ldI _ => 0xF000
  | .jpV0 _ => 0xF000
  | .rnd _ _ => 0xF000
  | .drw _ _ _ => 0xF000
  | .skp _ => 0xF0FF
  | .sknp _ => 0xF0FF
  | .ldVxDt _ => 0xF0FF
  | .ldVxK _ => 0xF0FF
  | .ldDtVx _ => 0xF0FF
  | .ldStVx _ => 0xF0FF
  | .addI _ => 0xF0FF
  | .ldF _ => 0xF0FF
  | .ldB _ => 0xF0FF
  | .ldMemVx _ => 0xF0FF
  | .ldVxMem _ => 0xF0FF
  | .noOp _ => 0x0000

/-- The row's `match`: the values of those bits. -/
def rowMatch : Instr → Word
  | .cls => 0x00E0
  | .ret => 0x00EE
  | .jp _ => 0x1000
  | .call _ => 0x2000
  | .seByte _ _ => 0x3000
  | .sneByte _ _ => 0x4000
  | .seReg _ _ _ => 0x5000
  | .ldByte _ _ => 0x6000
  | .addByte _ _ => 0x7000
  | .ldReg _ _ => 0x8000
  | .orReg _ _ => 0x8001
  | .andReg _ _ => 0x8002
  | .xorReg _ _ => 0x8003
  | .addReg _ _ => 0x8004
  | .subReg _ _ => 0x8005
  | .shr _ _ => 0x8006
  | .subnReg _ _ => 0x8007
  | .shl _ _ => 0x800E
  | .sneReg _ _ _ => 0x9000
  | .ldI _ => 0xA000
  | .jpV0 _ => 0xB000
  | .rnd _ _ => 0xC000
  | .drw _ _ _ => 0xD000
  | .skp _ => 0xE09E
  | .sknp _ => 0xE0A1
  | .ldVxDt _ => 0xF007
  | .ldVxK _ => 0xF00A
  | .ldDtVx _ => 0xF015
  | .ldStVx _ => 0xF018
  | .addI _ => 0xF01E
  | .ldF _ => 0xF029
  | .ldB _ => 0xF033
  | .ldMemVx _ => 0xF055
  | .ldVxMem _ => 0xF065
  | .noOp _ => 0x0000

/-- The instruction's word has its row's fixed bits. -/
def Statement (i : Instr) : Prop := encode i &&& rowMask i = rowMatch i

variable (a b c d : Nibble) (k : Byte) (n : Addr)

theorem masked_nibbles (m : Word) (i : Nat) : BitVec.getLsbD ((a ++ b ++ c ++ d : Word) &&& m) i =
    ((if i < 4 then d.getLsbD i else if i < 8 then c.getLsbD (i - 4)
      else if i < 12 then b.getLsbD (i - 8) else a.getLsbD (i - 12)) && m.getLsbD i) := by
  rw [BitVec.getLsbD_and, getLsbD_nibbles]

/-- The mask of the rows selected by the class and the last nibble. -/
theorem mask_outer_nibbles : (a ++ b ++ c ++ d : Word) &&& 0xF00F = a ++ 0#4 ++ 0#4 ++ d := by
  apply BitVec.eq_of_getLsbD_eq; intro i hi
  rw [masked_nibbles, getLsbD_nibbles]
  interval_cases i <;> simp

/-- The mask of the rows selected by the class alone. -/
theorem mask_class_nibbles : (a ++ b ++ c ++ d : Word) &&& 0xF000 = a ++ 0#4 ++ 0#4 ++ 0#4 := by
  apply BitVec.eq_of_getLsbD_eq; intro i hi
  rw [masked_nibbles, getLsbD_nibbles]
  interval_cases i <;> simp

theorem mask_class_byte : (a ++ b ++ k : Word) &&& 0xF000 = a ++ 0#4 ++ 0#8 := by
  apply BitVec.eq_of_getLsbD_eq; intro i hi
  rw [BitVec.getLsbD_and, getLsbD_byte, getLsbD_byte]
  interval_cases i <;> simp

/-- The mask of the rows selected by the class and the low byte. -/
theorem mask_outer_byte : (a ++ b ++ k : Word) &&& 0xF0FF = a ++ 0#4 ++ k := by
  apply BitVec.eq_of_getLsbD_eq; intro i hi
  rw [BitVec.getLsbD_and, getLsbD_byte, getLsbD_byte]
  interval_cases i <;> simp

theorem mask_class_addr : (a ++ n : Word) &&& 0xF000 = a ++ 0#12 := by
  apply BitVec.eq_of_getLsbD_eq; intro i hi
  rw [BitVec.getLsbD_and, getLsbD_addr, getLsbD_addr]
  interval_cases i <;> simp

theorem cls : Statement (.cls) := rfl
theorem ret : Statement (.ret) := rfl
theorem jp (nnn : Addr) : Statement (.jp nnn) := mask_class_addr _ _
theorem call (nnn : Addr) : Statement (.call nnn) := mask_class_addr _ _
theorem seByte (x : Nibble) (kk : Byte) : Statement (.seByte x kk) := mask_class_byte _ _ _
theorem sneByte (x : Nibble) (kk : Byte) : Statement (.sneByte x kk) := mask_class_byte _ _ _
theorem seReg (x y z : Nibble) : Statement (.seReg x y z) := mask_class_nibbles _ _ _ _
theorem ldByte (x : Nibble) (kk : Byte) : Statement (.ldByte x kk) := mask_class_byte _ _ _
theorem addByte (x : Nibble) (kk : Byte) : Statement (.addByte x kk) := mask_class_byte _ _ _
theorem ldReg (x y : Nibble) : Statement (.ldReg x y) := mask_outer_nibbles _ _ _ _
theorem orReg (x y : Nibble) : Statement (.orReg x y) := mask_outer_nibbles _ _ _ _
theorem andReg (x y : Nibble) : Statement (.andReg x y) := mask_outer_nibbles _ _ _ _
theorem xorReg (x y : Nibble) : Statement (.xorReg x y) := mask_outer_nibbles _ _ _ _
theorem addReg (x y : Nibble) : Statement (.addReg x y) := mask_outer_nibbles _ _ _ _
theorem subReg (x y : Nibble) : Statement (.subReg x y) := mask_outer_nibbles _ _ _ _
theorem shr (x y : Nibble) : Statement (.shr x y) := mask_outer_nibbles _ _ _ _
theorem subnReg (x y : Nibble) : Statement (.subnReg x y) := mask_outer_nibbles _ _ _ _
theorem shl (x y : Nibble) : Statement (.shl x y) := mask_outer_nibbles _ _ _ _
theorem sneReg (x y z : Nibble) : Statement (.sneReg x y z) := mask_class_nibbles _ _ _ _
theorem ldI (nnn : Addr) : Statement (.ldI nnn) := mask_class_addr _ _
theorem jpV0 (nnn : Addr) : Statement (.jpV0 nnn) := mask_class_addr _ _
theorem rnd (x : Nibble) (kk : Byte) : Statement (.rnd x kk) := mask_class_byte _ _ _
theorem drw (x y n : Nibble) : Statement (.drw x y n) := mask_class_nibbles _ _ _ _
theorem skp (x : Nibble) : Statement (.skp x) := mask_outer_byte _ _ _
theorem sknp (x : Nibble) : Statement (.sknp x) := mask_outer_byte _ _ _
theorem ldVxDt (x : Nibble) : Statement (.ldVxDt x) := mask_outer_byte _ _ _
theorem ldVxK (x : Nibble) : Statement (.ldVxK x) := mask_outer_byte _ _ _
theorem ldDtVx (x : Nibble) : Statement (.ldDtVx x) := mask_outer_byte _ _ _
theorem ldStVx (x : Nibble) : Statement (.ldStVx x) := mask_outer_byte _ _ _
theorem addI (x : Nibble) : Statement (.addI x) := mask_outer_byte _ _ _
theorem ldF (x : Nibble) : Statement (.ldF x) := mask_outer_byte _ _ _
theorem ldB (x : Nibble) : Statement (.ldB x) := mask_outer_byte _ _ _
theorem ldMemVx (x : Nibble) : Statement (.ldMemVx x) := mask_outer_byte _ _ _
theorem ldVxMem (x : Nibble) : Statement (.ldVxMem x) := mask_outer_byte _ _ _
theorem noOp (w : Word) : Statement (.noOp w) := BitVec.and_zero

end Sys2Proof.Laws.TableBits
end

