-- ==== Sys2Proof/Tests/Slice0.lean ====
section
/-! SUPPORT. Tests/Slice0.lean: this package's own tests. The expected values are those of spec/95_test_vectors.md (the vector is named in the test's comment) or are written out from spec/30_encoding.md; the witness_ theorems show concrete states and operands that meet the hypotheses of a statement. -/

namespace Sys2Proof.Tests

open Sys2Proof.Machine

/-! ## Helpers -/

/-- One step on the word `w` placed at `pc`. -/
def runWord (w : Nat) (s : State) : Option State :=
  match step (s.withFetchWord 16 w) with
  | .next t => some t
  | _ => none

/-- The state after reset with two registers set. -/
def withRegs (x : Nibble) (a : Byte) (y : Nibble) (b : Byte) : State := (State.reset.setV x a).setV y b

/-- Two registers after one step on `w`. -/
def regsAfter (w : Nat) (s : State) (x y : Nibble) : Option (Byte × Byte) := (runWord w s).map fun t => (t.getV x, t.getV y)

/-- `pc` after one step on `w`. -/
def pcAfter (w : Nat) (s : State) : Option Word := (runWord w s).map fun t => t.pc

/-- The fault recorded by one step on `w`. -/
def faultAfter (w : Nat) (s : State) : Option FaultRecord := (runWord w s).bind fun t => t.fault

/-- The state after reset with `I` set. -/
def atIndex (i : Word) : State := { State.reset with regI := i }

/-- The bytes at `a`, `a + 1`, `a + 2` after one step on `w`. -/
def bytesAfter (w : Nat) (s : State) (a : Nat) : Option (List Byte) := (runWord w s).map fun t => readBytes t.mem a 3

/-- The state after reset with one key pressed. -/
def pressing (k : Nibble) (s : State) : State := setKey k true s

/-! ## Well-formedness: the one check, and a term it refuses -/

theorem test_noOp_of_an_unrecognised_word_is_wellFormed : (Instr.noOp 0x0123).wellFormed = true := by decide

theorem test_noOp_of_a_recognised_word_is_refused :
    (Instr.noOp 0x00E0).wellFormed = false ∧ (Instr.noOp 0x1200).wellFormed = false ∧
    (Instr.noOp 0x8124).wellFormed = false ∧ (Instr.noOp 0xE19E).wellFormed = false ∧
    (Instr.noOp 0xF265).wellFormed = false := by decide

theorem test_every_other_instruction_is_wellFormed : (Instr.drw 1 2 5).wellFormed = true := by decide

/-! ## Decoding: a word of each row, its bits written out from the row's pattern -/

theorem test_decode_control :
    decodeWord 0b0000000011101110 = .ret ∧ decodeWord 0b0001001000110100 = .jp 0x234 ∧
    decodeWord 0b0010001100000000 = .call 0x300 ∧ decodeWord 0b0011001100010000 = .seByte 3 0x10 ∧
    decodeWord 0b0100001100010001 = .sneByte 3 0x11 ∧ decodeWord 0b0101000100100000 = .seReg 1 2 0 ∧
    decodeWord 0b0101000100100001 = .seReg 1 2 1 ∧ decodeWord 0b1001000100101111 = .sneReg 1 2 15 ∧
    decodeWord 0b1011001100000000 = .jpV0 0x300 := by decide

theorem test_decode_alu :
    decodeWord 0b0110101000000010 = .ldByte 10 2 ∧ decodeWord 0b0111000100100000 = .addByte 1 0x20 ∧
    decodeWord 0b1000000100100000 = .ldReg 1 2 ∧ decodeWord 0b1000000100100001 = .orReg 1 2 ∧
    decodeWord 0b1000000100100010 = .andReg 1 2 ∧ decodeWord 0b1000000100100011 = .xorReg 1 2 ∧
    decodeWord 0b1000000100100100 = .addReg 1 2 ∧ decodeWord 0b1000000100100101 = .subReg 1 2 ∧
    decodeWord 0b1000000100100110 = .shr 1 2 ∧ decodeWord 0b1000000100100111 = .subnReg 1 2 ∧
    decodeWord 0b1000000100101110 = .shl 1 2 ∧ decodeWord 0b1100000100001111 = .rnd 1 0x0F := by decide

theorem test_decode_index_and_memory :
    decodeWord 0b1010001100000000 = .ldI 0x300 ∧ decodeWord 0b1111001000011110 = .addI 2 ∧
    decodeWord 0b1111001100101001 = .ldF 3 ∧ decodeWord 0b1111000000110011 = .ldB 0 ∧
    decodeWord 0b1111001001010101 = .ldMemVx 2 ∧ decodeWord 0b1111001001100101 = .ldVxMem 2 := by decide

theorem test_decode_display_timers_keys :
    decodeWord 0b0000000011100000 = .cls ∧ decodeWord 0b1101000100100101 = .drw 1 2 5 ∧
    decodeWord 0b1110000110011110 = .skp 1 ∧ decodeWord 0b1110000110100001 = .sknp 1 ∧
    decodeWord 0b1111001100000111 = .ldVxDt 3 ∧ decodeWord 0b1111010100001010 = .ldVxK 5 ∧
    decodeWord 0b1111001100010101 = .ldDtVx 3 ∧ decodeWord 0b1111001100011000 = .ldStVx 3 := by decide

/-- The words next to a recognised one (R80, V-CTL21 to 23, V-ALU26, V-IO16). -/
theorem test_decode_no_op :
    decodeWord 0x0000 = .noOp 0x0000 ∧ decodeWord 0x01E0 = .noOp 0x01E0 ∧ decodeWord 0x0123 = .noOp 0x0123 ∧
    decodeWord 0x8128 = .noOp 0x8128 ∧ decodeWord 0x812D = .noOp 0x812D ∧ decodeWord 0x812F = .noOp 0x812F ∧
    decodeWord 0xE00A = .noOp 0xE00A ∧ decodeWord 0xE1A0 = .noOp 0xE1A0 ∧ decodeWord 0xF100 = .noOp 0xF100 ∧
    decodeWord 0xF175 = .noOp 0xF175 ∧ decodeWord 0xFFFF = .noOp 0xFFFF := by decide

theorem test_decode_bytes_takes_two : decodeBytes [0x6A, 0x02, 0x00] = .ok (.ldByte 10 2, [0x00]) := by decide

theorem test_decode_bytes_too_short : decodeBytes [0x6A] = .error .tooShort := by decide

theorem test_decode_table_word : decodeTableWord 16 0x6A02 = some (.ldByte 10 2) := by decide

/-! ## One step of each instruction -/

/-- V-CY1 -/
theorem test_fetch_is_big_endian : regsAfter 0x6A02 State.reset 10 15 = some (2, 0) := by decide

/-- V-CTL3 and V-CTL4 -/
theorem test_call : (runWord 0x2300 State.reset).map (fun t => (t.pc, t.stack)) = some (0x300, [0x202]) := by decide
theorem test_ret : (runWord 0x00EE { State.reset with stack := [0x202] }).map (fun t => (t.pc, t.stack)) =
    some (0x202, []) := by decide

/-- V-CTL5 -/
theorem test_ret_on_an_empty_stack :
    faultAfter 0x00EE State.reset = some ⟨.stackUnderflow, 0x200, some 0x00EE, none⟩ := by decide

/-- V-CTL1 and V-CTL8 -/
theorem test_jp : pcAfter 0x1234 State.reset = some 0x234 := by decide
theorem test_jpV0 : pcAfter 0xBFFF (withRegs 0 0xFF 3 0x99) = some 0x10FE := by decide

/-- V-CTL10 to V-CTL13 -/
theorem test_seByte : pcAfter 0x3310 (withRegs 3 0x10 4 0) = some 0x204 ∧ pcAfter 0x3311 (withRegs 3 0x10 4 0) = some 0x202 := by
  decide
theorem test_sneByte : pcAfter 0x4310 (withRegs 3 0x10 4 0) = some 0x202 ∧ pcAfter 0x4311 (withRegs 3 0x10 4 0) = some 0x204 := by
  decide

/-- V-CTL14 to V-CTL19 -/
theorem test_seReg : pcAfter 0x5121 (withRegs 1 7 2 7) = some 0x204 ∧ pcAfter 0x5120 (withRegs 1 7 2 8) = some 0x202 := by decide
theorem test_sneReg : pcAfter 0x9120 (withRegs 1 7 2 8) = some 0x204 ∧ pcAfter 0x9110 (withRegs 1 7 2 8) = some 0x202 := by decide

/-- V-CTL21: only `pc` and the batch's counter change. -/
theorem test_no_op : runWord 0x0123 State.reset =
    some { State.reset with mem := [(512, 0x01), (513, 0x23)], pc := 0x202, slot := 1 } := by decide

/-- V-ALU2, V-ALU4 -/
theorem test_addByte : regsAfter 0x7120 (withRegs 1 0xF0 15 0) 1 15 = some (0x10, 0) := by decide
theorem test_addByte_on_vf : regsAfter 0x7F01 (withRegs 1 0 15 0xFF) 15 1 = some (0, 0) := by decide

/-- V-ALU5 to V-ALU8 -/
theorem test_ldReg : regsAfter 0x8120 (withRegs 1 0 2 0x33) 1 2 = some (0x33, 0x33) := by decide
theorem test_orReg : regsAfter 0x8121 ((withRegs 1 0x0F 2 0xF0).setV 15 0x77) 1 15 = some (0xFF, 0x77) := by decide
theorem test_andReg : regsAfter 0x8122 (withRegs 1 0x3C 2 0x0F) 1 2 = some (0x0C, 0x0F) := by decide
theorem test_xorReg : regsAfter 0x8123 (withRegs 1 0x3C 2 0x0F) 1 2 = some (0x33, 0x0F) := by decide

/-- W1; V-ALU12 -/
theorem test_addReg : regsAfter 0x8124 (withRegs 1 0xFF 2 0x01) 1 15 = some (0x00, 1) ∧
    regsAfter 0x8124 (withRegs 1 0x80 2 0x7F) 1 15 = some (0xFF, 0) := by decide
theorem test_addReg_on_vf : regsAfter 0x8F24 (withRegs 15 0x01 2 0xFF) 15 2 = some (0x00, 0xFF) := by decide

/-- W2; V-ALU16 -/
theorem test_subReg : regsAfter 0x8125 (withRegs 1 0x05 2 0x05) 1 15 = some (0x00, 1) ∧
    regsAfter 0x8125 (withRegs 1 0x05 2 0x07) 1 15 = some (0xFE, 0) := by decide
theorem test_subReg_on_vf : regsAfter 0x8F25 (withRegs 15 0x09 2 0x03) 15 2 = some (0x06, 0x03) := by decide

/-- V-ALU20, V-ALU21 -/
theorem test_subnReg : regsAfter 0x8127 (withRegs 1 0x05 2 0x07) 1 15 = some (0x02, 1) ∧
    regsAfter 0x8127 (withRegs 1 0x07 2 0x05) 1 15 = some (0xFE, 0) := by decide

/-- V-ALU18, V-ALU19 -/
theorem test_shr : regsAfter 0x8126 (withRegs 1 0x05 2 0xAA) 1 15 = some (0x02, 1) := by decide
theorem test_shr_on_vf : regsAfter 0x8F06 (withRegs 15 0x03 2 0) 15 2 = some (0x01, 0) := by decide

/-- V-ALU23, V-ALU24 -/
theorem test_shl : regsAfter 0x810E (withRegs 1 0x81 2 0) 1 15 = some (0x02, 1) ∧
    regsAfter 0x810E (withRegs 1 0x7F 2 0) 1 15 = some (0xFE, 0) := by decide

/-- V-ALU28: a mask of 0, and the draw is counted. -/
theorem test_rnd_masked_away (s : State) :
    exec (.rnd 1 0) s = .next ({ s with rngDraws := s.rngDraws + 1 }.setV 1 0) := by
  simp [exec, execRnd, State.draw]

/-- V-MEM1 to V-MEM4, V-MEM8 -/
theorem test_ldI : (runWord 0xA300 State.reset).map (·.regI) = some 0x300 := by decide
theorem test_addI_wraps : (runWord 0xF11E { withRegs 1 0xFF 2 0 with regI := 0xFF0 }).map (·.regI) = some 0x0EF := by decide
theorem test_ldF_is_not_masked : (runWord 0xF329 (withRegs 3 0x10 1 0)).map (·.regI) = some 0x050 := by decide

/-- V-MEM9, V-MEM12, V-MEM13 -/
theorem test_ldB : bytesAfter 0xF033 ((atIndex 0x300).setV 0 0x9C) 0x300 = some [1, 5, 6] := by decide
theorem test_ldB_bounds : bytesAfter 0xF033 ((atIndex 0xFFD).setV 0 9) 0xFFD = some [0, 0, 9] ∧
    faultAfter 0xF033 (atIndex 0xFFE) = some ⟨.memoryOutOfBounds, 0x200, some 0xF033, some 0x1000⟩ := by decide

/-- V-MEM14, V-MEM17, V-MEM22 -/
theorem test_ldMemVx : bytesAfter 0xF155 { withRegs 0 1 1 2 with regI := 0x300 } 0x300 = some [1, 2, 0] := by decide
theorem test_ldMemVx_bounds : faultAfter 0xFF55 (atIndex 0xFF1) = some ⟨.memoryOutOfBounds, 0x200, some 0xFF55, some 0x1000⟩ ∧
    bytesAfter 0xF055 (withRegs 0 0x12 1 0) 0 = some [0x12, 0x90, 0x90] := by decide

/-- V-MEM18 (on the font's first bytes), V-MEM21 -/
theorem test_ldVxMem : regsAfter 0xF165 (atIndex 0) 0 1 = some (0xF0, 0x90) := by decide
theorem test_ldVxMem_bounds :
    faultAfter 0xF165 (atIndex 0xFFF) = some ⟨.memoryOutOfBounds, 0x200, some 0xF165, some 0x1000⟩ := by decide

/-- The registers' row 0 of pixels 0 to 7 after one step on `w`, and VF. -/
def cornerAfter (w : Nat) (s : State) (row : Fin 32) : Option (List Bool × Byte) :=
  (runWord w s).map fun t => ((List.finRange 8).map fun c => pixel t.disp row (c.castLE (by decide)), t.getV 15)

/-- V-D2: the glyph 0 at the corner, its second row. -/
theorem test_drw : cornerAfter 0xD125 State.reset 1 =
    some ([true, false, false, true, false, false, false, false], 0) := by decide

/-- W5: the wrap across the right edge, its left part. -/
theorem test_drw_wraps : cornerAfter 0xD121 { withRegs 1 60 2 0 with regI := 0x300, mem := [(0x300, 0xFF)] } 0 =
    some ([true, true, true, true, false, false, false, false], 0) := by decide

/-- V-D1 -/
theorem test_cls : cornerAfter 0x00E0 { State.reset with disp := setPixel blankDisplay 0 3 true } 0 =
    some ([false, false, false, false, false, false, false, false], 0) := by decide

/-- V-IO1 to V-IO3 -/
theorem test_ldVxDt : regsAfter 0xF307 { State.reset with dt := 0x3C } 3 15 = some (0x3C, 0) := by decide
theorem test_ldDtVx : (runWord 0xF315 (withRegs 3 0x3C 4 0)).map (·.dt) = some 0x3C := by decide
theorem test_ldStVx : (runWord 0xF318 (withRegs 3 0x05 4 0)).map (·.st) = some 0x05 := by decide

/-- V-IO5 to V-IO10 -/
theorem test_skp : pcAfter 0xE19E (pressing 10 (withRegs 1 0x0A 2 0)) = some 0x204 ∧
    pcAfter 0xE19E (withRegs 1 0x0A 2 0) = some 0x202 := by decide
theorem test_sknp : pcAfter 0xE1A1 (pressing 10 (withRegs 1 0x0A 2 0)) = some 0x202 ∧
    pcAfter 0xE1A1 (withRegs 1 0x0A 2 0) = some 0x204 := by decide
theorem test_key_skips_above_fifteen :
    faultAfter 0xE19E (withRegs 1 0x10 2 0) = some ⟨.keyIndexOutOfRange, 0x200, some 0xE19E, some 16⟩ ∧
    faultAfter 0xE1A1 (withRegs 1 0xFF 2 0) = some ⟨.keyIndexOutOfRange, 0x200, some 0xE1A1, some 255⟩ := by decide

/-- V-IO11, V-IO12 -/
theorem test_ldVxK_waits : (runWord 0xF50A State.reset).map (fun t => (t.pc, t.waiting)) = some (0x200, true) := by decide
theorem test_ldVxK_takes_the_lowest :
    (runWord 0xF50A (pressing 3 (pressing 9 State.reset))).map (fun t => (t.pc, t.waiting, t.getV 5)) =
      some (0x202, false, 3) := by decide

/-! ## The cycle -/

/-- V-CY4, V-CY6 -/
theorem test_halted_frame_ticks :
    (match runFrame { State.reset with pc := 0xFFF, dt := 5 } with | .next t => some (t.pc, t.dt) | _ => none) =
      some (0xFFF, 4) := by decide

/-- V-CY5 -/
theorem test_fetch_past_the_end :
    (match executeOne { State.reset with pc := 0xFFF } with | .next t => t.fault | _ => none) =
      some ⟨.memoryOutOfBounds, 0xFFF, none, some 0x1000⟩ := by decide

/-- V-CY9: a fault in the frame, no tick. -/
theorem test_fault_suppresses_the_tick :
    (match runFrame ({ State.reset with dt := 5 }.withFetchWord 16 0x00EE) with | .next t => some (t.pc, t.dt) | _ => none) =
      some (0x200, 5) := by decide

/-- V-CTL20: 4096, and not the 4098 of R124's corner case (log 18). -/
theorem test_skip_at_the_end_of_memory : pcAfter 0x3000 { State.reset with pc := 0xFFC } = some 0x1000 := by decide

theorem test_stopped : step { State.reset with fault := some ⟨.stackUnderflow, 0x200, some 0x00EE, none⟩ } =
    .fault (.stopped ⟨.stackUnderflow, 0x200, some 0x00EE, none⟩) := rfl

/-- W7: the first length that fails, and the empty program -/
theorem test_load_of_3585_bytes_fails (bytes : List Byte) (h : bytes.length = 3585) : loadProgram bytes State.reset = none := by
  rw [loadProgram, if_neg (by rw [h]; decide)]
theorem test_load_of_nothing : loadProgram [] State.reset = some State.reset := rfl

theorem test_reset_memory_is_canonical : Memory.wf State.reset.mem := by decide

theorem test_rows_of_the_table_do_not_overlap :
    [(0x00E0#16, 0xFFFF#16), (0x00EE, 0xFFFF), (0x1000, 0xF000), (0x2000, 0xF000), (0x3000, 0xF000), (0x4000, 0xF000),
      (0x5000, 0xF000), (0x6000, 0xF000), (0x7000, 0xF000), (0x8000, 0xF00F), (0x8001, 0xF00F), (0x8002, 0xF00F),
      (0x8003, 0xF00F), (0x8004, 0xF00F), (0x8005, 0xF00F), (0x8006, 0xF00F), (0x8007, 0xF00F), (0x800E, 0xF00F),
      (0x9000, 0xF000), (0xA000, 0xF000), (0xB000, 0xF000), (0xC000, 0xF000), (0xD000, 0xF000), (0xE09E, 0xF0FF),
      (0xE0A1, 0xF0FF), (0xF007, 0xF0FF), (0xF00A, 0xF0FF), (0xF015, 0xF0FF), (0xF018, 0xF0FF), (0xF01E, 0xF0FF),
      (0xF029, 0xF0FF), (0xF033, 0xF0FF), (0xF055, 0xF0FF), (0xF065, 0xF0FF)].Pairwise
      (fun r q => r.1 &&& (r.2 &&& q.2) ≠ q.1 &&& (r.2 &&& q.2)) := by decide

/-! ## Witnesses: each statement with hypotheses has a state and operands that meet them, at the edges of their ranges -/

/-- The state after reset with `pc` at the end of memory: halted. -/
def halted : State := { State.reset with pc := 0xFFF }

/-- A stopped machine. -/
def stopped : State := { State.reset with fault := some ⟨.stackUnderflow, 0x200, some 0x00EE, none⟩ }

/-- A running machine about to run the word `w`. -/
def placed (w : Nat) : State := State.reset.withFetchWord 16 w

theorem running_placed (w : Nat) : Running (placed w) :=
  ⟨rfl, by show (512#16).toNat ≤ 4094; decide, by show 0 < 600 / 60; decide⟩

theorem inv_reset : Inv State.reset :=
  ⟨Memory.wf_nil, by decide, by decide, by simp [State.reset, State.afterReset], by decide, by decide,
    by simp [State.reset, State.afterReset]⟩

theorem witness_RetPopsTheReturnAddress : ({ State.reset with stack := [0x300, 0x202] } : State).stack = [0x300] ++ [0x202] := rfl

theorem witness_OnlyRetOnEmptyStackUnderflows :
    State.reset.stack = [] ∧ exec .ret State.reset = .next (raiseIn State.reset .ret .stackUnderflow none) ∧
    State.reset.fault = none := ⟨rfl, rfl, rfl⟩

theorem witness_ReturnUndoesCall : (State.reset.push 0x202).stack = [0x202] := rfl

theorem witness_RegisterSkipsCompare :
    (withRegs 1 7 2 7).getV 1 = 7 ∧ (withRegs 1 7 2 7).getV 1 ≠ 8 ∧ (withRegs 1 7 2 7).getV 1 = (withRegs 1 7 2 7).getV 2 ∧
    (withRegs 1 7 2 8).getV 1 ≠ (withRegs 1 7 2 8).getV 2 := by decide

theorem witness_UnrecognisedWordsAreNoOps :
    Running (placed 0x0000) ∧ (placed 0x0000).fetchWord = 0 ∧ unrecognised 0x0000 = true ∧ unrecognised 0x8008 = true ∧
    unrecognised 0x800F = true ∧ unrecognised 0xE000 = true ∧ unrecognised 0xF066 = true ∧ unrecognised 0x00E0 = false ∧
    unrecognised 0x800E = false ∧ unrecognised 0xE09E = false ∧ unrecognised 0xF065 = false :=
  ⟨running_placed _, by decide, by decide⟩

/-- For AddImmediateWrapsWithoutFlag, AddWithCarry, SubtractWithNotBorrow, ShiftsReportTheBitShiftedOut and FlagOrderShowsOnlyInVF: both
sides of each condition, at its edge. -/
theorem witness_flag_statements :
    (0#4 ≠ 0xF#4) ∧ (0xE#4 ≠ 0xF#4) ∧
    (255 < ((withRegs 1 0x80 2 0x80).getV 1).toNat + ((withRegs 1 0x80 2 0x80).getV 2).toNat) ∧
    ¬(255 < ((withRegs 1 0x80 2 0x7F).getV 1).toNat + ((withRegs 1 0x80 2 0x7F).getV 2).toNat) ∧
    ((withRegs 1 5 2 5).getV 2).toNat ≤ ((withRegs 1 5 2 5).getV 1).toNat ∧
    ¬((withRegs 1 4 2 5).getV 2).toNat ≤ ((withRegs 1 4 2 5).getV 1).toNat := by decide

theorem witness_RandomByteIsMasked : (0xF0#8).getLsbD 0 = false := by decide

theorem witness_BcdStoresTheDigits : (atIndex 0xFFD).regI.toNat + 2 < 4096 := by decide

/-- For RegisterDumpIsInclusive, RegisterLoadIsInclusive and LoadGivesBackTheDump. -/
theorem witness_RegisterDumpAndLoad : (atIndex 0xFF0).regI.toNat + (0xF#4).toNat < 4096 ∧
    (atIndex 0xFFF).regI.toNat + (0#4).toNat < 4096 ∧ (0xF#4).toNat ≤ (0xF#4).toNat ∧ (0#4).toNat < (0xF#4).toNat := by decide

theorem witness_LoadGivesBackTheDump : ∃ t, exec (.ldMemVx 0xF) (atIndex 0xFF0) = .next t := ⟨_, rfl⟩

theorem witness_OutOfBoundsAccessFaults :
    4096 ≤ (atIndex 0xFFE).regI.toNat + 2 ∧ ¬4096 ≤ (atIndex 0xFFD).regI.toNat + 2 ∧
    4096 ≤ (atIndex 0xFF1).regI.toNat + (0xF#4).toNat ∧ ¬4096 ≤ (atIndex 0xFF0).regI.toNat + (0xF#4).toNat ∧
    0 < (5#4).toNat ∧ 4096 ≤ (atIndex 0xFFC).regI.toNat + (5#4).toNat - 1 ∧
    ¬4096 ≤ (atIndex 0xFFB).regI.toNat + (5#4).toNat - 1 := by decide

theorem witness_StoredCodeIsFetched :
    (atIndex 0x300).regI.toNat + (1#4).toNat < 4096 ∧ (1#4).toNat = (0#4).toNat + 1 ∧ (1#4).toNat ≤ (1#4).toNat ∧
    ({ atIndex 0x300 with pc := 0x300 } : State).pc.toNat = (atIndex 0x300).regI.toNat + (0#4).toNat := by decide

theorem witness_DrawTogglesAndReportsCollision :
    (0#4).toNat = 0 ∧ (atIndex 0xFFB).regI.toNat + (5#4).toNat - 1 < 4096 := by decide

/-- The glyph 0 at the corner hits pixel (0, 0) and not pixel (1, 1). -/
theorem witness_SpriteHits : SpriteHits [0xF0, 0x90, 0x90, 0x90, 0xF0] 0 0 0 0 ∧ ¬SpriteHits [0xF0, 0x90, 0x90, 0x90, 0xF0] 0 0 1 1 := by
  refine ⟨⟨0, 0, 0xF0, rfl, by decide, by decide, by decide, by decide⟩, ?_⟩
  rintro ⟨r, b, byte, h, hb, hbit, hrow, hcol⟩
  have hr : r < 5 := by simpa using (List.getElem?_eq_some_iff.mp h).1
  have h1 : r = 1 := by simp at hrow; omega
  have h2 : b = 1 := by simp at hcol; omega
  subst h1 h2
  simp at h
  subst h
  exact absurd hbit (by decide)

theorem witness_DrawTwiceRestoresTheDisplay : ∃ t, exec (.drw 1 2 5) State.reset = .next t ∧
    (({ State.reset with disp := t.disp } : State).getV 1 = State.reset.getV 1) := ⟨_, rfl, rfl⟩

theorem witness_OnlyDisplayInstructionsTouchTheDisplay :
    Instr.ret ≠ .cls ∧ (∀ x y n, Instr.ret ≠ .drw x y n) ∧ halted.batchDone = true ∧ halted.fault = none ∧
    HostCall.setKey 0 true ≠ .runFrame ∧ hostCall .readSound State.reset = .next (State.reset, .tone false) ∧
    hostCall .readDisplay State.reset = .next (State.reset, .display (readDisplay State.reset)) :=
  ⟨by decide, fun _ _ _ => by simp, by decide, rfl, by decide, rfl, rfl⟩

theorem witness_KeySkipsReadTheLatch :
    ((withRegs 1 0xF 2 0).getV 1).toNat = (15 : Fin 16).val ∧ (pressing 15 (withRegs 1 0xF 2 0)).key 15 = true ∧
    (withRegs 1 0xF 2 0).key 15 = false := by decide

theorem witness_KeyIndexAboveFifteenFaults : 15 < ((withRegs 1 0x10 2 0).getV 1).toNat := by decide

theorem witness_WaitForKeyTakesTheLowestOrRewinds :
    (pressing 15 State.reset).key 15 = true ∧ (∀ j : Fin 16, j < 15 → (pressing 15 State.reset).key j = false) ∧
    (∀ k : Fin 16, State.reset.key k = false) := by decide

theorem witness_WaitingFrameStaysAtTheInstruction :
    (placed 0xF50A).fault = none ∧ (placed 0xF50A).pc.toNat ≤ 4094 ∧ 60 ≤ (placed 0xF50A).clockSpeed ∧
    decodeWord (placed 0xF50A).fetchWord = .ldVxK 5 ∧ (∀ k : Fin 16, (placed 0xF50A).key k = false) := by decide

theorem witness_OnlySetKeyWritesTheLatches :
    step halted = .next halted.endFrame ∧ (∀ x, Instr.cls ≠ .skp x) ∧ (∀ x, Instr.cls ≠ .sknp x) ∧
    (∀ x, Instr.cls ≠ .ldVxK x) ∧ exec .cls State.reset = .next { State.reset with disp := blankDisplay } ∧
    hostCall .readSound State.reset = .next (State.reset, .tone false) :=
  ⟨rfl, fun _ => by simp, fun _ => by simp, fun _ => by simp, rfl, rfl⟩

/-- A step that goes on and a step that faults: the two cases of the statement. -/
theorem witness_StepRunsTheDecodedInstruction :
    Running (placed 0x6A02) ∧
    decodeBytes [readByte (placed 0x6A02).mem 512, readByte (placed 0x6A02).mem 513] = .ok (.ldByte 10 2, []) ∧
    Running (placed 0x00EE) ∧
    decodeBytes [readByte (placed 0x00EE).mem 512, readByte (placed 0x00EE).mem 513] = .ok (.ret, []) ∧
    (∃ t, exec .ret { placed 0x00EE with pc := 0x202 } = .next t ∧ t.fault ≠ none) :=
  ⟨running_placed _, by decide, running_placed _, by decide, _, rfl, by simp [raiseIn, raise]⟩

theorem witness_FrameEndTicksTheTimers :
    State.reset.clockSpeed / 60 ≤ ({ State.reset with slot := 10 } : State).slot ∧ 4094 < halted.pc.toNat ∧
    halted.fault = none := by decide

theorem witness_StoppedMachineNeverChanges :
    stopped.fault = some ⟨.stackUnderflow, 0x200, some 0x00EE, none⟩ ∧
    hostCall (.setKey 0 true) stopped = .next (stopped, .nothing) := ⟨rfl, rfl⟩

theorem witness_HaltedMachineOnlyTicks : Halted halted := ⟨rfl, by decide⟩

/-- For StepsMakeUpRunFrame, SetKeyWritesOneLatch and HostReadsShowTheState. -/
theorem witness_slot_is_zero_between_frames : State.reset.slot = 0 ∧ ¬({ State.reset with slot := 1 } : State).slot = 0 := by decide

/-- V-CY9 by the host's call: the reply is the fault raised. -/
theorem test_run_frame_reports_the_fault :
    (match hostCall .runFrame (placed 0x00EE) with | .next (_, .faultRaised r) => r | _ => none) =
      some ⟨.stackUnderflow, 0x200, some 0x00EE, none⟩ := by decide

theorem witness_FaultsAreAtomic : ∃ t, exec .ret State.reset = .next t ∧ State.reset.fault = none ∧ t.fault ≠ none :=
  ⟨_, rfl, rfl, by simp [raiseIn, raise]⟩

theorem witness_FaultingStepIsPrecise : Running (placed 0x00EE) ∧
    (runWord 0x00EE State.reset).map (fun t => t.fault.isSome) = some true := ⟨running_placed _, by decide⟩

theorem witness_FaultsArisePreciselyWhenTheRulesSay :
    exec .cls State.reset = .next { State.reset with disp := blankDisplay } ∧ State.reset.fault = none := ⟨rfl, rfl⟩

theorem witness_FetchPastTheEndFaults : halted.fault = none ∧ 4094 < halted.pc.toNat := by decide

theorem witness_OnlyTheTwoStoresWriteMemory :
    (∀ x, Instr.cls ≠ .ldB x) ∧ (∀ x, Instr.cls ≠ .ldMemVx x) ∧ halted.batchDone = true ∧
    (atIndex 0xFFF).regI.toNat < 4096 ∧ (atIndex 0xFFD).regI.toNat + 2 < 4096 :=
  ⟨fun _ => by simp, fun _ => by simp, by decide, by decide, by decide⟩

/-- VF changes: by a flag, by a draw that hits an on pixel, by a named destination. -/
theorem witness_OnlyFlagInstructionsWriteVF :
    regsAfter 0x8124 (withRegs 1 0xFF 2 0x01) 15 2 = some (1, 1) ∧
    cornerAfter 0xD001 { State.reset with disp := setPixel blankDisplay 0 0 true } 0 =
      some ([false, true, true, true, false, false, false, false], 1) ∧
    regsAfter 0x6F05 State.reset 15 0 = some (5, 0) := by decide

theorem witness_OnlyCallAndReturnTouchTheStack : (∀ n, Instr.cls ≠ .call n) ∧ Instr.cls ≠ .ret := ⟨fun _ => by simp, by decide⟩

theorem witness_ClockSpeedBelongsToTheScheduler :
    hostCall (.newMachine 1) State.reset = .next (State.afterReset 1, .nothing) ∧ 0 < 1 ∧ State.reset.slot = 0 ∧
    exec .cls State.reset = .next { State.reset with disp := blankDisplay } ∧ step halted = .next halted.endFrame :=
  ⟨rfl, by decide, rfl, rfl, rfl⟩

theorem witness_SoundAndWaitingAreNotObserved : step halted = .next halted.endFrame := rfl

theorem witness_NewMachineSatisfiesTheInvariant : 0 < 1 ∧ 0 < 600 := by decide

theorem witness_EveryStepKeepsTheInvariant : Inv State.reset ∧ (step State.reset matches .next _) = true := ⟨inv_reset, by decide⟩

theorem witness_EveryHostCallKeepsTheInvariant : Inv State.reset ∧
    hostCall (.setKey 3 true) State.reset = .next (setKey 3 true State.reset, .nothing) := ⟨inv_reset, rfl⟩

theorem witness_ReachableStatesSatisfyTheInvariant : Reachable State.reset := .reset 600 (by decide)

/-- The host's new machine is made from a stopped one too. -/
theorem witness_ResetSetsEveryElement : stopped.slot = 0 ∧ 0 < 60 ∧ stopped.fault ≠ none := by decide

theorem witness_LoadProgramFitsOrFails : State.reset.slot = 0 ∧ State.reset.fault = none ∧
    512 + (List.replicate 3584 (0 : Byte)).length ≤ 4096 ∧ 4096 < 512 + (List.replicate 3585 (0 : Byte)).length :=
  ⟨rfl, rfl, by rw [List.length_replicate], by rw [List.length_replicate]; decide⟩

theorem witness_FirstInstructionIsAt512 : 60 ≤ 60 ∧ (List.replicate 3582 (0 : Byte)).length ≤ 3582 :=
  ⟨by decide, by rw [List.length_replicate]⟩

theorem witness_HostHasNoMoveDuringAFrame : ({ State.reset with slot := 1 } : State).slot ≠ 0 := by decide

theorem witness_DecodeUndoesEncode : (Instr.noOp 0x8128).wellFormed = true ∧ (Instr.seReg 15 15 15).wellFormed = true := by decide

theorem witness_PlacedWordRunsNext : 0 < 65536 ∧ 0xFFFF < 65536 := by decide

end Sys2Proof.Tests
end

/-! # State elements (10_state.md): which operations write the key latches, and which read them -/

namespace Sys2Proof.Machine

/-! ## What a cycle, a frame and a host call can do -/

/-- R100, R101, R105: the three outcomes of `execute_one`, each under its guard. -/
theorem executeOne_cases {s t : State} (h : executeOne s = .next t) :
    (s.fault ≠ none ∧ t = s) ∨
    (s.fault = none ∧ 4094 < s.pc.toNat ∧ t = s.raiseFetch) ∨
    (s.fault = none ∧ s.pc.toNat ≤ 4094 ∧ exec (decodeWord s.fetchWord) s.advance = .next t) := by
  cases hf : s.fault with
  | some r =>
    rw [executeOne_of_fault hf] at h
    exact .inl ⟨by simp, (Host.Outcome.next.inj h).symm⟩
  | none =>
    rcases Nat.lt_or_ge 4094 s.pc.toNat with hpc | hpc
    · rw [executeOne_of_past hf hpc] at h
      exact .inr (.inl ⟨rfl, hpc, (Host.Outcome.next.inj h).symm⟩)
    · rw [executeOne_of_fetch hf hpc] at h
      exact .inr (.inr ⟨rfl, hpc, h⟩)

/-- R106-R109: a step that goes on ends the frame or counts one instruction of its batch. -/
theorem step_cases {s t : State} (h : step s = .next t) :
    s.fault = none ∧
      ((s.batchDone = true ∧ t = s.endFrame) ∨
       (s.batchDone = false ∧ ∃ u, executeOne s = .next u ∧ t = u.countSlot)) := by
  cases hf : s.fault with
  | some r => rw [step_of_fault hf] at h; cases h
  | none =>
    refine ⟨rfl, ?_⟩
    cases hd : s.batchDone with
    | true =>
      rw [step_of_batchDone hf (s.batchDone_iff.mp hd)] at h
      exact .inl ⟨rfl, (Host.Outcome.next.inj h).symm⟩
    | false =>
      cases he : executeOne s with
      | fault r => simp [step, schedulerMove, hf, hd, he] at h
      | refused r => simp [step, schedulerMove, hf, hd, he] at h
      | next u => exact .inr ⟨rfl, u, rfl, by simpa [step, schedulerMove, hf, hd, he] using h.symm⟩

/-- What every `execute_one` keeps, a batch keeps (R106). -/
theorem runBatch_preserves {P : State → Prop} (hone : ∀ s t, P s → executeOne s = .next t → P t)
    {k : Nat} {s t : State} (hs : P s) (h : runBatch k s = .next t) : P t := by
  induction k generalizing s with
  | zero => exact Host.Outcome.next.inj h ▸ hs
  | succ k ih =>
    cases hh : s.halted with
    | true =>
      have hst : s = t := by simpa [runBatch, hh] using h
      exact hst ▸ hs
    | false =>
      cases he : executeOne s with
      | fault r => simp [runBatch, hh, he] at h
      | refused r => simp [runBatch, hh, he] at h
      | next u =>
        have hu : P u := hone s u hs he
        cases hf : u.fault with
        | none => exact ih hu (by simpa [runBatch, hh, he, hf] using h)
        | some r =>
          have hut : u = t := by simpa [runBatch, hh, he, hf] using h
          exact hut ▸ hu

/-- What every `execute_one` and the tick keep, a frame keeps (R106, R109, R110). -/
theorem runFrame_preserves {P : State → Prop} (hone : ∀ s t, P s → executeOne s = .next t → P t)
    (htick : ∀ s, P s → P s.timerTick) {s t : State} (hs : P s) (h : runFrame s = .next t) : P t := by
  cases hf : s.fault with
  | some r =>
    have hst : s = t := by simpa [runFrame, hf] using h
    exact hst ▸ hs
  | none =>
    cases hb : runBatch s.batchSize s with
    | fault r => simp [runFrame, hf, hb] at h
    | refused r => simp [runFrame, hf, hb] at h
    | next u =>
      have hu : P u := runBatch_preserves hone hs hb
      cases huf : u.fault with
      | none =>
        have hut : u.timerTick = t := by simpa [runFrame, hf, hb, huf] using h
        exact hut ▸ htick u hu
      | some r =>
        have hut : u = t := by simpa [runFrame, hf, hb, huf] using h
        exact hut ▸ hu

theorem withFault_eq_next {o : Host.Outcome State Fault Refusal} {t : State} {r : HostReply}
    (h : withFault o = .next (t, r)) : o = .next t ∧ r = .faultRaised t.fault := by
  cases o with
  | next u =>
    obtain ⟨rfl, rfl⟩ : u = t ∧ .faultRaised u.fault = r := by simpa [withFault] using h
    exact ⟨rfl, rfl⟩
  | fault f => cases h
  | refused f => cases h

theorem loadProgram_eq_some {bytes : List Byte} {s t : State} (h : loadProgram bytes s = some t) :
    512 + bytes.length ≤ 4096 ∧ t = { s with mem := writeBytes s.mem 512 bytes } := by
  unfold loadProgram at h
  split at h
  · next hfit => exact ⟨hfit, (Option.some.inj h).symm⟩
  · cases h

/-- R246, R234: a host call that answers was made between frames, and each call has its one effect on the state or none. -/
theorem hostCall_cases {c : HostCall} {s t : State} {r : HostReply} (h : hostCall c s = .next (t, r)) :
    s.slot = 0 ∧
      (t = s ∨
       (∃ n, c = .newMachine n ∧ n ≠ 0 ∧ t = newMachine n s) ∨
       (∃ bytes, c = .loadProgram bytes ∧ s.fault = none ∧ loadProgram bytes s = some t) ∨
       (∃ k b, c = .setKey k b ∧ s.fault = none ∧ t = setKey k b s) ∨
       (c = .runFrame ∧ runFrame s = .next t) ∨
       (c = .executeOne ∧ executeOne s = .next t)) := by
  by_cases hs : s.slot = 0
  case neg => simp [hostCall, hs] at h
  refine ⟨hs, ?_⟩
  simp only [hostCall, hs, ne_eq, not_true_eq_false, if_false] at h
  cases c with
  | newMachine n =>
    by_cases hn : n = 0
    · simp [hn] at h
    · exact .inr (.inl ⟨n, rfl, hn, by simp_all⟩)
  | loadProgram bytes =>
    cases hf : s.fault with
    | some f => exact .inl (by simp_all)
    | none =>
      cases hl : loadProgram bytes s with
      | none => exact .inl (by simp_all)
      | some u => exact .inr (.inr (.inl ⟨bytes, rfl, rfl, by simp_all⟩))
  | setKey k b =>
    cases hf : s.fault with
    | some f => exact .inl (by simp_all)
    | none => exact .inr (.inr (.inr (.inl ⟨k, b, rfl, rfl, by simp_all⟩)))
  | runFrame => exact .inr (.inr (.inr (.inr (.inl ⟨rfl, (withFault_eq_next h).1⟩))))
  | executeOne => exact .inr (.inr (.inr (.inr (.inr ⟨rfl, (withFault_eq_next h).1⟩))))
  | readDisplay => exact .inl (by simp_all)
  | readSound => exact .inl (by simp_all)

/-! ## Meanings that do not look at the latches -/

/-- The same state with other latches. -/
def State.withKeys (s : State) (ks : Vector Bool 16) : State := { s with keys := ks }

/-- A meaning that neither reads nor writes the latches: other latches before give the same answer with those latches after. -/
def KeyBlind (act : State → Host.Outcome State Fault Refusal) : Prop :=
  ∀ (ks : Vector Bool 16) (s t : State), act s = .next t → act (s.withKeys ks) = .next (t.withKeys ks)

/-- A key-blind meaning keeps the latches: it answers the same when they are replaced by themselves. -/
theorem KeyBlind.keys_eq {act : State → Host.Outcome State Fault Refusal} (h : KeyBlind act) {s t : State}
    (hst : act s = .next t) : t.keys = s.keys := by
  have hself : act s = .next (t.withKeys s.keys) := h s.keys s t hst
  have ht : t = t.withKeys s.keys := Host.Outcome.next.inj (hst.symm.trans hself)
  rw [ht]; rfl

/-- An update that goes past the latches is key-blind. -/
theorem keyBlind_next {f : State → State}
    (hf : ∀ (ks : Vector Bool 16) (s : State), f (s.withKeys ks) = (f s).withKeys ks) :
    KeyBlind fun s => .next (f s) := by
  intro ks s t h
  rw [← Host.Outcome.next.inj h, ← hf]

/-- A checked access is key-blind when its act is: neither the bounds nor the fault record depend on the latches (R52, R232). -/
theorem keyBlind_checkedAccess (i : Instr) (count : Nat) {act : State → State}
    (hact : ∀ (ks : Vector Bool 16) (s : State), act (s.withKeys ks) = (act s).withKeys ks) :
    KeyBlind fun s => checkedAccess i count s act := by
  intro ks s t h
  rcases checkedAccess_cases i count s act with ⟨he, hin⟩ | ⟨he, h0, hout⟩
  · rw [← Host.Outcome.next.inj (he.symm.trans h), ← hact]
    exact checkedAccess_of_inBounds hin
  · rw [← Host.Outcome.next.inj (he.symm.trans h)]
    exact checkedAccess_of_outOfBounds h0 hout

theorem keyBlind_execRet : KeyBlind execRet := by
  intro ks s t h
  rcases stack_cases s.stack with hs | ⟨rest, a, hs⟩
  · simp only [execRet, State.pop?_of_empty hs] at h
    have hs' : (s.withKeys ks).stack = [] := hs
    simp only [execRet, State.pop?_of_empty hs', ← Host.Outcome.next.inj h]
    rfl
  · simp only [execRet, State.pop?_append hs] at h
    have hs' : (s.withKeys ks).stack = rest ++ [a] := hs
    simp only [execRet, State.pop?_append hs', ← Host.Outcome.next.inj h]
    rfl

/-- R29: every instruction but Ex9E, ExA1 and Fx0A is key-blind. -/
theorem keyBlind_exec {i : Instr} (hskp : ∀ x, i ≠ .skp x) (hsknp : ∀ x, i ≠ .sknp x) (hldk : ∀ x, i ≠ .ldVxK x) :
    KeyBlind (exec i) := by
  cases i
  case skp x => exact absurd rfl (hskp x)
  case sknp x => exact absurd rfl (hsknp x)
  case ldVxK x => exact absurd rfl (hldk x)
  case ret => exact keyBlind_execRet
  case drw x y n => exact keyBlind_checkedAccess _ _ fun _ _ => rfl
  case ldB x => exact keyBlind_checkedAccess _ _ fun _ _ => rfl
  case ldMemVx x => exact keyBlind_checkedAccess _ _ fun _ _ => rfl
  case ldVxMem x => exact keyBlind_checkedAccess _ _ fun _ _ => rfl
  all_goals exact keyBlind_next fun _ _ => rfl

/-! ## The latches are kept by every instruction, step and frame -/

theorem keySkip_keeps_keys {i : Instr} {v : Byte} {wanted : Bool} {s t : State} (h : keySkip i v wanted s = .next t) :
    t.keys = s.keys := by
  rcases Nat.lt_or_ge v.toNat 16 with hv | hv
  · rw [keySkip_of_lt hv] at h
    rw [← Host.Outcome.next.inj h, State.skipIf_keys]
  · rw [keySkip_of_ge hv] at h
    rw [← Host.Outcome.next.inj h, raiseIn, raise_keys]

theorem execLdVxK_keeps_keys {x : Nibble} {s t : State} (h : execLdVxK x s = .next t) : t.keys = s.keys := by
  cases hk : s.lowestKey <;> simp only [execLdVxK, hk] at h <;> rw [← Host.Outcome.next.inj h]
  · rw [State.rewind_keys]
  · rw [State.setV_keys]

/-- R29: no instruction writes a latch; the three that read them included. -/
theorem exec_keeps_keys {i : Instr} {s t : State} (h : exec i s = .next t) : t.keys = s.keys := by
  cases i
  case skp x => exact keySkip_keeps_keys h
  case sknp x => exact keySkip_keeps_keys h
  case ldVxK x => exact execLdVxK_keeps_keys h
  all_goals exact (keyBlind_exec (by simp) (by simp) (by simp)).keys_eq h

theorem executeOne_keeps_keys {s t : State} (h : executeOne s = .next t) : t.keys = s.keys := by
  rcases executeOne_cases h with ⟨-, rfl⟩ | ⟨-, -, rfl⟩ | ⟨-, -, he⟩
  · rfl
  · rw [State.raiseFetch, raise_keys]
  · rw [exec_keeps_keys he, State.advance_keys]

theorem step_keeps_keys {s t : State} (h : step s = .next t) : t.keys = s.keys := by
  obtain ⟨-, ⟨-, rfl⟩ | ⟨-, u, hu, rfl⟩⟩ := step_cases h
  · rw [State.endFrame_keys]
  · rw [State.countSlot_keys, executeOne_keeps_keys hu]

theorem runFrame_keeps_keys {s t : State} (h : runFrame s = .next t) : t.keys = s.keys :=
  runFrame_preserves (P := fun u => u.keys = s.keys) (fun _ _ hu he => (executeOne_keeps_keys he).trans hu)
    (fun u hu => u.timerTick_keys.trans hu) rfl h

/-- R29, R248, R260: a host call that changes the latches is `set_key` or makes a new machine. -/
theorem hostCall_keeps_keys {c : HostCall} {s t : State} {r : HostReply} (h : hostCall c s = .next (t, r))
    (hset : ∀ k b, c ≠ .setKey k b) (hnew : ∀ n, c ≠ .newMachine n) : t.keys = s.keys := by
  obtain ⟨-, rfl | ⟨n, hc, -, -⟩ | ⟨bytes, -, -, hl⟩ | ⟨k, b, hc, -, -⟩ | ⟨-, hr⟩ | ⟨-, he⟩⟩ := hostCall_cases h
  · rfl
  · exact absurd hc (hnew n)
  · rw [(loadProgram_eq_some hl).2]
  · exact absurd hc (hset k b)
  · exact runFrame_keeps_keys hr
  · exact executeOne_keeps_keys he

/-! ## The latches at reset, and the three instructions that read them -/

@[simp] theorem State.key_afterReset (n : Nat) (k : Fin 16) : (State.afterReset n).key k = false := by
  simp [State.key, State.afterReset, Vector.get_eq_getElem]

@[simp] theorem State.getV_afterReset (n : Nat) (x : Nibble) : (State.afterReset n).getV x = 0 := by
  simp [State.getV, State.afterReset]

/-- After reset, with every key pressed. -/
def allKeysPressed : State := State.reset.withKeys (Vector.replicate 16 true)

@[simp] theorem State.key_allKeysPressed (k : Fin 16) : allKeysPressed.key k = true := by
  simp [State.key, allKeysPressed, State.withKeys, Vector.get_eq_getElem]

/-- A key skip on key 0 leaves two `pc`s when no key is pressed and when all are (R213, R214). -/
theorem keySkip_reads_keys (i : Instr) (wanted : Bool) :
    ∃ t u, keySkip i 0 wanted State.reset = .next t ∧ keySkip i 0 wanted allKeysPressed = .next u ∧ t.pc ≠ u.pc := by
  refine ⟨_, _, keySkip_of_lt (by decide), keySkip_of_lt (by decide), ?_⟩
  cases wanted <;> decide

/-- Fx0A is rewound when no key is pressed, and goes on when one is (R215). -/
theorem execLdVxK_reads_keys (x : Nibble) :
    ∃ t u, execLdVxK x State.reset = .next t ∧ execLdVxK x allKeysPressed = .next u ∧ t.pc ≠ u.pc := by
  have hnone : State.reset.lowestKey = none := State.lowestKey_eq_none.mpr (State.key_afterReset _)
  have hsome : allKeysPressed.lowestKey = some 0 :=
    State.lowestKey_eq_some.mpr ⟨by decide, State.key_allKeysPressed _, fun j hj => absurd hj (Nat.not_lt_zero j)⟩
  refine ⟨_, _, by simp only [execLdVxK, hnone]; rfl, by simp only [execLdVxK, hsome]; rfl, ?_⟩
  simp [State.reset, State.afterReset, allKeysPressed, State.withKeys]

/-- R29: each of Ex9E, ExA1 and Fx0A tells the two states apart. -/
theorem exec_reads_keys {x : Nibble} {i : Instr} (hi : i = .skp x ∨ i = .sknp x ∨ i = .ldVxK x) :
    ∃ t u, exec i State.reset = .next t ∧ exec i allKeysPressed = .next u ∧ t.pc ≠ u.pc := by
  have hreset : State.reset.getV x = 0 := State.getV_afterReset _ x
  have hpressed : allKeysPressed.getV x = 0 := (State.getV_congr rfl x).trans hreset
  rcases hi with rfl | rfl | rfl
  · simpa only [exec, execSkp, hreset, hpressed] using keySkip_reads_keys (.skp x) true
  · simpa only [exec, execSknp, hreset, hpressed] using keySkip_reads_keys (.sknp x) false
  · exact execLdVxK_reads_keys x

/-- Settles O31: every instruction keeps the latches, so every step, frame and host call but two does; and the three readers tell a reset
machine from one with all its keys pressed. -/
theorem onlySetKeyWritesTheLatches : Obligations.OnlySetKeyWritesTheLatches := by
  unfold Obligations.OnlySetKeyWritesTheLatches
  refine ⟨State.key_afterReset, fun _ _ => step_keeps_keys, fun _ _ _ _ => hostCall_keeps_keys,
    fun i s t hskp hsknp hldk h ks => keyBlind_exec hskp hsknp hldk ks s t h, fun x i hi => ?_⟩
  obtain ⟨t, u, ht, hu, hne⟩ := exec_reads_keys hi
  exact ⟨State.reset, t, u, Vector.replicate 16 true, ht, hu, hne⟩

end Sys2Proof.Machine

/-! # Encoding (30_encoding.md): the unrecognised words, and the no-op that each of them is -/

namespace Sys2Proof

/-! ## Which words decode to the no-op, class by class (R73, R80) -/

section
variable {w : Word}

theorem decodeClass0_eq_noOp_iff : decodeClass0 w = .noOp w ↔ w ≠ 0x00E0 ∧ w ≠ 0x00EE := by
  simp only [decodeClass0, BitVec.ofNat_eq_ofNat]
  split_ifs <;> simp [*]

/-- The selectors of class 8 that R80 lists are those that no row of R73 takes. -/
theorem class8_unrecognised_iff (n : Nibble) : n ∈ [0x8#4, 0x9#4, 0xA#4, 0xB#4, 0xC#4, 0xD#4, 0xF#4] ↔
    n ∉ [0x0#4, 0x1#4, 0x2#4, 0x3#4, 0x4#4, 0x5#4, 0x6#4, 0x7#4, 0xE#4] := by
  revert n; decide

theorem decodeClass8_eq_noOp_iff :
    decodeClass8 w = .noOp w ↔ fieldN w ∈ [0x8#4, 0x9#4, 0xA#4, 0xB#4, 0xC#4, 0xD#4, 0xF#4] := by
  rw [class8_unrecognised_iff]
  simp only [decodeClass8, BitVec.ofNat_eq_ofNat]
  split_ifs <;> simp [*]

theorem decodeClassE_eq_noOp_iff : decodeClassE w = .noOp w ↔ fieldKK w ∉ [0x9E#8, 0xA1#8] := by
  simp only [decodeClassE, BitVec.ofNat_eq_ofNat]
  split_ifs <;> simp [*]

theorem decodeClassF_eq_noOp_iff : decodeClassF w = .noOp w ↔
    fieldKK w ∉ [0x07#8, 0x0A#8, 0x15#8, 0x18#8, 0x1E#8, 0x29#8, 0x33#8, 0x55#8, 0x65#8] := by
  simp only [decodeClassF, BitVec.ofNat_eq_ofNat]
  split_ifs <;> simp [*]

/-- The twelve classes that are left when the four that R80 names are taken away. -/
theorem class_mem_of_ne {c : Nibble} (h0 : c ≠ 0x0#4) (h8 : c ≠ 0x8#4) (hE : c ≠ 0xE#4) (hF : c ≠ 0xF#4) :
    c ∈ [0x1#4, 0x2#4, 0x3#4, 0x4#4, 0x5#4, 0x6#4, 0x7#4, 0x9#4, 0xA#4, 0xB#4, 0xC#4, 0xD#4] := by
  revert c; decide

/-- In a class that R80's list does not name, each word is an instruction. -/
theorem decodeWord_ne_noOp_of_class (h0 : fieldClass w ≠ 0x0#4) (h8 : fieldClass w ≠ 0x8#4) (hE : fieldClass w ≠ 0xE#4)
    (hF : fieldClass w ≠ 0xF#4) : decodeWord w ≠ .noOp w := by
  have hc := class_mem_of_ne h0 h8 hE hF
  simp only [List.mem_cons, List.not_mem_nil, or_false] at hc
  rcases hc with h | h | h | h | h | h | h | h | h | h | h | h <;> simp [decodeWord, h]

/-- R80: the words that decode to the no-op, by the fields of R71. -/
theorem decodeWord_eq_noOp_iff : decodeWord w = .noOp w ↔
    (fieldClass w = 0x0#4 ∧ w ≠ 0x00E0 ∧ w ≠ 0x00EE) ∨
    (fieldClass w = 0x8#4 ∧ fieldN w ∈ [0x8#4, 0x9#4, 0xA#4, 0xB#4, 0xC#4, 0xD#4, 0xF#4]) ∨
    (fieldClass w = 0xE#4 ∧ fieldKK w ∉ [0x9E#8, 0xA1#8]) ∨
    (fieldClass w = 0xF#4 ∧
      fieldKK w ∉ [0x07#8, 0x0A#8, 0x15#8, 0x18#8, 0x1E#8, 0x29#8, 0x33#8, 0x55#8, 0x65#8]) := by
  rw [← decodeClass0_eq_noOp_iff, ← decodeClass8_eq_noOp_iff, ← decodeClassE_eq_noOp_iff, ← decodeClassF_eq_noOp_iff]
  by_cases h0 : fieldClass w = 0x0#4
  · simp [decodeWord, h0]
  by_cases h8 : fieldClass w = 0x8#4
  · simp [decodeWord, h8]
  by_cases hE : fieldClass w = 0xE#4
  · simp [decodeWord, hE]
  by_cases hF : fieldClass w = 0xF#4
  · simp [decodeWord, hF]
  · simp [decodeWord_ne_noOp_of_class h0 h8 hE hF, h0, h8, hE, hF]

end

end Sys2Proof

namespace Sys2Proof.Machine

/-! ## Running the no-op, alone and in a batch (R80, R102, R106, R128) -/

theorem exec_noOp (w : Word) (s : State) : exec (.noOp w) s = .next s := rfl

/-- A no-op that is fetched is the advance of R102 and nothing more. -/
theorem executeOne_of_noOp {s : State} {w : Word} (hf : s.fault = none) (hpc : s.pc.toNat ≤ 4094)
    (hw : decodeWord s.fetchWord = .noOp w) : executeOne s = .next s.advance := by
  rw [executeOne_of_fetch hf hpc, hw, exec_noOp]

theorem State.halted_eq_false_iff (s : State) : s.halted = false ↔ s.pc.toNat ≤ 4094 := by
  simp [State.halted]

/-- R106, R108: an instruction that faults nowhere is one of the batch, which goes on from the state it leaves. -/
theorem runBatch_succ_of_next {s t : State} (hpc : s.pc.toNat ≤ 4094) (hst : executeOne s = .next t)
    (hf : t.fault = none) (k : Nat) : runBatch (k + 1) s = runBatch k t := by
  simp [runBatch, s.halted_eq_false_iff.mpr hpc, hst, hf]

/-- Settles O6: each class's branch of the decoder leaves R80's words to the no-op, which a cycle runs as the advance alone and a batch
counts like any instruction that faults nowhere. -/
theorem unrecognisedWordsAreNoOps : Obligations.UnrecognisedWordsAreNoOps := by
  unfold Obligations.UnrecognisedWordsAreNoOps
  intro w unknown
  have hdec : decodeWord w = .noOp w ↔ unknown := decodeWord_eq_noOp_iff
  refine ⟨hdec, exec_noOp w, fun s hf hpc hw hu => ?_⟩
  have hone : executeOne s = .next s.advance := executeOne_of_noOp hf hpc (hw ▸ hdec.mpr hu)
  exact ⟨hone, runBatch_succ_of_next hpc hone hf⟩

end Sys2Proof.Machine

/-! # Registers and arithmetic (42_alu.md): the immediate load -/

namespace Sys2Proof

/-- R73, R142: of the classes only the sixth takes the word, and its fields are the operands. -/
theorem decodeWord_ldByte (x : Nibble) (kk : Byte) : decodeWord (0x6#4 ++ x ++ kk) = .ldByte x kk := by
  have hclass : fieldClass (0x6#4 ++ x ++ kk) = 0x6#4 := fieldClass_byte 0x6#4 x kk
  simp [decodeWord, hclass, fieldX_byte, fieldKK_byte]

end Sys2Proof

namespace Sys2Proof.Machine

theorem exec_ldByte (x : Nibble) (kk : Byte) (s : State) : exec (.ldByte x kk) s = .next (s.setV x kk) := rfl

/-- Settles O7: the fields of `6xkk` are the operands, and the meaning is one register write, whose read-back and frame are laws of
the state. -/
theorem loadImmediateWritesTheByte : Obligations.LoadImmediateWritesTheByte := by
  unfold Obligations.LoadImmediateWritesTheByte
  intro x kk s
  have hread : (s.setV x kk).getV x = kk := by simp [State.getV_setV]
  exact ⟨decodeWord_ldByte x kk, s.setV x kk, exec_ldByte x kk s, hread, ChangesOnly.setV s x kk⟩

end Sys2Proof.Machine

/-! # Display (44_display.md): what CLS does, and which operations write and read the display -/

namespace Sys2Proof.Machine

/-! ## Replacing the display, and the clear (R190) -/

/-- The same state with another display. -/
def State.withDisplay (s : State) (d : Display) : State := { s with disp := d }

/-- Replacing the display changes the display only. -/
theorem ChangesOnly.withDisplay (s : State) (d : Display) : ChangesOnly [] [.display] s (s.withDisplay d) := by
  refine ⟨fun r _ => State.getV_congr rfl r, fun p hp => ?_⟩
  cases p
  case display => exact absurd (List.mem_singleton_self _) hp
  all_goals simp [Part.Same, State.withDisplay, State.key]

theorem exec_cls (s : State) : exec .cls s = .next (s.withDisplay blankDisplay) := rfl

/-- Settles O22: the meaning of CLS is the replacement of the display by the blank one, and nothing else changes. -/
theorem clearScreenTurnsEveryPixelOff : Obligations.ClearScreenTurnsEveryPixelOff := by
  unfold Obligations.ClearScreenTurnsEveryPixelOff
  intro s
  exact ⟨by decide, s.withDisplay blankDisplay, exec_cls s, pixel_blankDisplay, ChangesOnly.withDisplay s blankDisplay⟩

/-! ## Meanings that do not look at the display (R194) -/

/-- A meaning that neither reads nor writes the display: it answers, and after another display it answers the same with that display kept. -/
def DisplayBlind (act : State → Host.Outcome State Fault Refusal) : Prop :=
  ∀ (d : Display) (s : State), ∃ t, act s = .next t ∧ act (s.withDisplay d) = .next (t.withDisplay d)

theorem DisplayBlind.answers_withDisplay {act : State → Host.Outcome State Fault Refusal} (h : DisplayBlind act) {s t : State}
    (hst : act s = .next t) (d : Display) : act (s.withDisplay d) = .next (t.withDisplay d) := by
  obtain ⟨u, hu, hd⟩ := h d s
  rwa [← Host.Outcome.next.inj (hu.symm.trans hst)]

/-- A display-blind meaning keeps the display: it answers the same when the display is replaced by itself. -/
theorem DisplayBlind.disp_eq {act : State → Host.Outcome State Fault Refusal} (h : DisplayBlind act) {s t : State}
    (hst : act s = .next t) : t.disp = s.disp := by
  have hself : act s = .next (t.withDisplay s.disp) := h.answers_withDisplay hst s.disp
  have ht : t = t.withDisplay s.disp := Host.Outcome.next.inj (hst.symm.trans hself)
  rw [ht]; rfl

/-- A checked access is display-blind when its act is: neither the bounds nor the fault record depend on the display (R52, R232). -/
theorem displayBlind_checkedAccess (i : Instr) (count : Nat) {act : State → State}
    (hact : ∀ (d : Display) (s : State), act (s.withDisplay d) = (act s).withDisplay d) :
    DisplayBlind fun s => checkedAccess i count s act := by
  intro d s
  rcases checkedAccess_cases i count s act with ⟨he, hin⟩ | ⟨he, h0, hout⟩
  · exact ⟨_, he, hact d s ▸ checkedAccess_of_inBounds hin⟩
  · exact ⟨_, he, checkedAccess_of_outOfBounds h0 hout⟩

/-- A key skip depends on the key's number and its latch alone (R213, R214, R233). -/
theorem displayBlind_keySkip (i : Instr) (x : Nibble) (wanted : Bool) :
    DisplayBlind fun s => keySkip i (s.getV x) wanted s := by
  intro d s
  rcases Nat.lt_or_ge (s.getV x).toNat 16 with hv | hv
  · exact ⟨_, keySkip_of_lt hv, keySkip_of_lt hv⟩
  · exact ⟨_, keySkip_of_ge hv, keySkip_of_ge hv⟩

theorem displayBlind_execLdVxK (x : Nibble) : DisplayBlind (execLdVxK x) := by
  intro d s
  have hkeys : (s.withDisplay d).lowestKey = s.lowestKey := rfl
  simp only [execLdVxK, hkeys]
  cases s.lowestKey with
  | none => exact ⟨_, rfl, rfl⟩
  | some k => exact ⟨_, rfl, rfl⟩

theorem displayBlind_execRet : DisplayBlind execRet := by
  intro d s
  rcases stack_cases s.stack with hs | ⟨rest, a, hs⟩
  · have hs' : (s.withDisplay d).stack = [] := hs
    simp only [execRet, State.pop?_of_empty hs, State.pop?_of_empty hs']
    exact ⟨_, rfl, rfl⟩
  · have hs' : (s.withDisplay d).stack = rest ++ [a] := hs
    simp only [execRet, State.pop?_append hs, State.pop?_append hs']
    exact ⟨_, rfl, rfl⟩

/-- R194: every instruction but CLS and DRW is display-blind. -/
theorem displayBlind_exec {i : Instr} (hcls : i ≠ .cls) (hdrw : ∀ x y n, i ≠ .drw x y n) : DisplayBlind (exec i) := by
  cases i
  case cls => exact absurd rfl hcls
  case drw x y n => exact absurd rfl (hdrw x y n)
  case ret => exact displayBlind_execRet
  case skp x => exact displayBlind_keySkip _ x true
  case sknp x => exact displayBlind_keySkip _ x false
  case ldVxK x => exact displayBlind_execLdVxK x
  case ldB x => exact displayBlind_checkedAccess _ _ fun _ _ => rfl
  case ldMemVx x => exact displayBlind_checkedAccess _ _ fun _ _ => rfl
  case ldVxMem x => exact displayBlind_checkedAccess _ _ fun _ _ => rfl
  all_goals exact fun _ _ => ⟨_, rfl, rfl⟩

/-! ## The host's calls and the display (R246-R249) -/

/-- A host call that runs no instruction, other than a new machine, keeps the display. -/
theorem hostCall_keeps_display {c : HostCall} {s t : State} {r : HostReply} (h : hostCall c s = .next (t, r))
    (hnew : ∀ n, c ≠ .newMachine n) (hframe : c ≠ .runFrame) (hone : c ≠ .executeOne) : t.disp = s.disp := by
  obtain ⟨-, rfl | ⟨n, hc, -, -⟩ | ⟨bytes, -, -, hl⟩ | ⟨k, b, -, -, rfl⟩ | ⟨hc, -⟩ | ⟨hc, -⟩⟩ := hostCall_cases h
  · rfl
  · exact absurd hc (hnew n)
  · rw [(loadProgram_eq_some hl).2]
  · rfl
  · exact absurd hc hframe
  · exact absurd hc hone

theorem hostCall_readDisplay {s : State} (hs : s.slot = 0) :
    hostCall .readDisplay s = .next (s, .display (readDisplay s)) := by
  simp [hostCall, hs]

/-- Between frames the host reads the same bytes from two states with one display (R249). -/
theorem hostCall_readDisplay_congr {s t : State} {a : HostReply} (hd : t.disp = s.disp) (ht : t.slot = 0)
    (h : hostCall .readDisplay s = .next (s, a)) : hostCall .readDisplay t = .next (t, a) := by
  have hs : s.slot = 0 := (hostCall_cases h).1
  have ha : a = .display (readDisplay s) :=
    (Prod.mk.inj (Host.Outcome.next.inj (h.symm.trans (hostCall_readDisplay hs)))).2
  rw [hostCall_readDisplay ht, ha, readDisplay, readDisplay, hd]

/-- R106, R109: the end of a frame keeps the display. -/
theorem step_keeps_display_of_batchDone {s t : State} (hf : s.fault = none) (hd : s.batchDone = true)
    (h : step s = .next t) : t.disp = s.disp := by
  rw [step_of_batchDone hf (s.batchDone_iff.mp hd)] at h
  rw [← Host.Outcome.next.inj h, State.endFrame_disp]

/-- Settles O25: every instruction but CLS and DRW is display-blind, CLS blanks whatever display there was, and neither the frame's end nor
a host call that runs no instruction writes the display, but for a new machine, whose display is blank. -/
theorem onlyDisplayInstructionsTouchTheDisplay : Obligations.OnlyDisplayInstructionsTouchTheDisplay := by
  unfold Obligations.OnlyDisplayInstructionsTouchTheDisplay
  refine ⟨fun i s t hcls hdrw h => ?_, fun s d => rfl, fun _ _ => step_keeps_display_of_batchDone,
    fun _ => pixel_blankDisplay, fun _ _ _ _ hnew hframe hone h => hostCall_keeps_display h hnew hframe hone,
    fun _ _ _ => hostCall_readDisplay_congr⟩
  have hblind : DisplayBlind (exec i) := displayBlind_exec hcls hdrw
  exact ⟨hblind.disp_eq h, hblind.answers_withDisplay h⟩

end Sys2Proof.Machine

/-! # Frames and footprints: taking some parts of the state from another state -/

namespace Sys2Proof.Machine

/-! ## A state with some parts of another -/

/-- `s` with the parts `ps` as they are in `u`; the registers are those of `s`. -/
def State.taking (s : State) (ps : List Part) (u : State) : State where
  mem := if .mem ∈ ps then u.mem else s.mem
  regs := s.regs
  regI := if .index ∈ ps then u.regI else s.regI
  pc := if .pc ∈ ps then u.pc else s.pc
  stack := if .stack ∈ ps then u.stack else s.stack
  dt := if .delay ∈ ps then u.dt else s.dt
  st := if .sound ∈ ps then u.st else s.st
  keys := if .keys ∈ ps then u.keys else s.keys
  disp := if .display ∈ ps then u.disp else s.disp
  waiting := if .waiting ∈ ps then u.waiting else s.waiting
  fault := if .fault ∈ ps then u.fault else s.fault
  clockSpeed := if .clock ∈ ps then u.clockSpeed else s.clockSpeed
  rngDraws := if .draws ∈ ps then u.rngDraws else s.rngDraws
  slot := if .slot ∈ ps then u.slot else s.slot

/-- Taking parts changes those parts only. -/
theorem ChangesOnly.taking (s u : State) (ps : List Part) : ChangesOnly [] ps s (s.taking ps u) := by
  refine ⟨fun r _ => State.getV_congr rfl r, fun p hp => ?_⟩
  cases p <;> simp [Part.Same, State.taking, State.key, hp]

/-- A state that is the old one but for some parts has changed in those parts only. -/
theorem changesOnly_of_taking {s t : State} {ps : List Part} (h : t = s.taking ps t) : ChangesOnly [] ps s t :=
  h ▸ ChangesOnly.taking s t ps

/-- Two changes in a row stay in a frame that holds each of them. -/
theorem ChangesOnly.trans {ds : List Nibble} {ps : List Part} {s t u : State} (hst : ChangesOnly ds ps s t)
    (htu : ChangesOnly ds ps t u) : ChangesOnly ds ps s u := by
  refine ⟨fun r hr => (htu.1 r hr).trans (hst.1 r hr), fun p hp => ?_⟩
  have h1 := hst.2 p hp
  have h2 := htu.2 p hp
  cases p <;> simp_all [Part.Same]

/-- A change of parts and then of one register. -/
theorem ChangesOnly.setV_of_parts {ps : List Part} {s t : State} (h : ChangesOnly [] ps s t) (x : Nibble) (b : Byte) :
    ChangesOnly [x] ps s (t.setV x b) :=
  (h.mono (List.nil_subset _) (List.Subset.refl _)).trans
    ((ChangesOnly.setV t x b).mono (List.Subset.refl _) (List.nil_subset _))

end Sys2Proof.Machine

/-! # What each instruction answers (40_cycle.md R103), where it has one answer -/

namespace Sys2Proof.Machine

variable (x y z n : Nibble) (kk : Byte) (nnn : Addr) (s : State)

theorem exec_jp : exec (.jp nnn) s = .next (s.jumpTo (nnn.setWidth 16)) := rfl
theorem exec_call : exec (.call nnn) s = .next ((s.push s.pc).jumpTo (nnn.setWidth 16)) := rfl
theorem exec_jpV0 : exec (.jpV0 nnn) s = .next (s.jumpTo (s.offsetTarget nnn)) := rfl
theorem exec_seByte : exec (.seByte x kk) s = .next (s.skipIf (s.getV x == kk)) := rfl
theorem exec_sneByte : exec (.sneByte x kk) s = .next (s.skipIf (s.getV x != kk)) := rfl
theorem exec_seReg : exec (.seReg x y z) s = .next (s.skipIf (s.getV x == s.getV y)) := rfl
theorem exec_sneReg : exec (.sneReg x y z) s = .next (s.skipIf (s.getV x != s.getV y)) := rfl
theorem exec_addByte : exec (.addByte x kk) s = .next (s.setV x (s.getV x + kk)) := rfl
theorem exec_ldReg : exec (.ldReg x y) s = .next (s.setV x (s.getV y)) := rfl
theorem exec_orReg : exec (.orReg x y) s = .next (s.setV x (s.getV x ||| s.getV y)) := rfl
theorem exec_andReg : exec (.andReg x y) s = .next (s.setV x (s.getV x &&& s.getV y)) := rfl
theorem exec_xorReg : exec (.xorReg x y) s = .next (s.setV x (s.getV x ^^^ s.getV y)) := rfl
theorem exec_addReg : exec (.addReg x y) s =
    .next (s.setFlagAndV x (carryOut (s.getV x) (s.getV y)) (s.getV x + s.getV y)) := rfl
theorem exec_subReg : exec (.subReg x y) s =
    .next (s.setFlagAndV x (noBorrow (s.getV x) (s.getV y)) (s.getV x - s.getV y)) := rfl
theorem exec_subnReg : exec (.subnReg x y) s =
    .next (s.setFlagAndV x (noBorrow (s.getV y) (s.getV x)) (s.getV y - s.getV x)) := rfl
theorem exec_shr : exec (.shr x y) s = .next (s.setFlagAndV x (lowBit (s.getV x)) (s.getV x >>> 1)) := rfl
theorem exec_shl : exec (.shl x y) s = .next (s.setFlagAndV x (highBit (s.getV x)) (s.getV x <<< 1)) := rfl
theorem exec_rnd : exec (.rnd x kk) s =
    .next ({ s with rngDraws := s.rngDraws + 1 }.setV x (Config.rng s.rngDraws &&& kk)) := rfl
theorem exec_ldI : exec (.ldI nnn) s = .next { s with regI := nnn.setWidth 16 } := rfl
theorem exec_addI : exec (.addI x) s =
    .next { s with regI := BitVec.ofNat 16 ((s.regI.toNat + (s.getV x).toNat) % 4096) } := rfl
theorem exec_ldF : exec (.ldF x) s = .next { s with regI := BitVec.ofNat 16 (5 * (s.getV x).toNat) } := rfl
theorem exec_ldVxDt : exec (.ldVxDt x) s = .next (s.setV x s.dt) := rfl
theorem exec_ldDtVx : exec (.ldDtVx x) s = .next { s with dt := s.getV x } := rfl
theorem exec_ldStVx : exec (.ldStVx x) s = .next { s with st := s.getV x } := rfl

end Sys2Proof.Machine

/-! # Where an instruction answers by cases: the stack, the keys, the memory -/

namespace Sys2Proof.Machine

section
variable {x y n : Nibble} {s : State}

theorem exec_ret_of_append {rest : List Word} {a : Word} (h : s.stack = rest ++ [a]) :
    exec .ret s = .next ({ s with stack := rest }.jumpTo a) := by
  simp only [exec, execRet, State.pop?_append h]

theorem exec_skp_of_lt (h : (s.getV x).toNat < 16) :
    exec (.skp x) s = .next (s.skipIf (s.key ⟨(s.getV x).toNat, h⟩ == true)) := keySkip_of_lt h

theorem exec_sknp_of_lt (h : (s.getV x).toNat < 16) :
    exec (.sknp x) s = .next (s.skipIf (s.key ⟨(s.getV x).toNat, h⟩ == false)) := keySkip_of_lt h

theorem exec_ldVxK_of_key {k : Nat} (h : s.lowestKey = some k) :
    exec (.ldVxK x) s = .next ({ s with waiting := false }.setV x (BitVec.ofNat 8 k)) := by
  simp only [exec, execLdVxK, h]

theorem exec_ldVxK_of_noKey (h : s.lowestKey = none) :
    exec (.ldVxK x) s = .next { s with waiting := true }.rewind := by
  simp only [exec, execLdVxK, h]

theorem exec_ldB_of_inBounds (h : s.regI.toNat + 2 < 4096) :
    exec (.ldB x) s = .next { s with mem := writeBytes s.mem s.regI.toNat (bcdDigits (s.getV x)) } := by
  rw [exec, execLdB, checkedAccess_of_inBounds (by omega)]; rfl

theorem exec_ldMemVx_of_inBounds (h : s.regI.toNat + x.toNat < 4096) :
    exec (.ldMemVx x) s =
      .next { s with mem := writeBytes s.mem s.regI.toNat (s.regs.toList.take (x.toNat + 1)) } := by
  rw [exec, execLdMemVx, checkedAccess_of_inBounds (by omega)]; rfl

theorem exec_ldVxMem_of_inBounds (h : s.regI.toNat + x.toNat < 4096) :
    exec (.ldVxMem x) s =
      .next { s with regs := setRegsFrom s.regs 0 (readBytes s.mem s.regI.toNat (x.toNat + 1)) } := by
  rw [exec, execLdVxMem, checkedAccess_of_inBounds (by omega)]; rfl

/-- What the compositor makes of a draw by Dxyn (R193). -/
def State.drawn (s : State) (x y n : Nibble) : Canvas :=
  drawSprite s.disp (readBytes s.mem s.regI.toNat n.toNat) (s.getV x).toNat (s.getV y).toNat

theorem exec_drw_of_inBounds (h : n.toNat = 0 ∨ s.regI.toNat + n.toNat - 1 < 4096) :
    exec (.drw x y n) s =
      .next ((s.withDisplay (s.drawn x y n).disp).setV regVF (flagByte (s.drawn x y n).collision)) := by
  rw [exec, execDrw, checkedAccess_of_inBounds (by omega)]; rfl

end

/-! # Faults: the rules' conditions decide what an instruction answers (60_exceptions.md R231-R233) -/

section
variable {x y n : Nibble} {s : State}

theorem expectedFault_ret_of_empty (h : s.stack = []) : expectedFault .ret s = some (.stackUnderflow, none) := if_pos h

theorem expectedFault_ret_eq_none : expectedFault .ret s = none ↔ s.stack ≠ [] := by simp [expectedFault]

theorem expectedFault_skp_eq_none : expectedFault (.skp x) s = none ↔ (s.getV x).toNat < 16 := by
  simp [expectedFault]; omega

theorem expectedFault_sknp_eq_none : expectedFault (.sknp x) s = none ↔ (s.getV x).toNat < 16 := by
  simp [expectedFault]; omega

theorem expectedFault_drw_eq_none :
    expectedFault (.drw x y n) s = none ↔ n.toNat = 0 ∨ s.regI.toNat + n.toNat - 1 < 4096 := by
  simp [expectedFault]; omega

theorem expectedFault_ldB_eq_none : expectedFault (.ldB x) s = none ↔ s.regI.toNat + 2 < 4096 := by
  simp [expectedFault]; omega

theorem expectedFault_ldMemVx_eq_none : expectedFault (.ldMemVx x) s = none ↔ s.regI.toNat + x.toNat < 4096 := by
  simp [expectedFault]

theorem expectedFault_ldVxMem_eq_none : expectedFault (.ldVxMem x) s = none ↔ s.regI.toNat + x.toNat < 4096 := by
  simp [expectedFault]

end

/-- Under the condition of a rule, the instruction raises that rule's fault. -/
theorem exec_of_expectedFault {i : Instr} {s : State} {kind : FaultKind} {info : Option Nat}
    (h : expectedFault i s = some (kind, info)) : exec i s = .next (raiseIn s i kind info) := by
  cases i
  case ret =>
    obtain ⟨hs, rfl, rfl⟩ : s.stack = [] ∧ .stackUnderflow = kind ∧ none = info := by simpa [expectedFault] using h
    simp only [exec, execRet, State.pop?_of_empty hs]
  case skp x | sknp x =>
    obtain ⟨hv, rfl, rfl⟩ : 15 < (s.getV x).toNat ∧ .keyIndexOutOfRange = kind ∧ some (s.getV x).toNat = info := by
      simpa [expectedFault] using h
    exact keySkip_of_ge hv
  case drw | ldB | ldMemVx | ldVxMem =>
    simp only [expectedFault, Option.ite_none_right_eq_some, Option.some.injEq, Prod.mk.injEq] at h
    obtain ⟨hI, rfl, rfl⟩ := h
    simp only [exec, execDrw, execLdB, execLdMemVx, execLdVxMem]
    rw [checkedAccess_of_outOfBounds (by omega) (by omega)] <;> rfl
  all_goals cases h

end Sys2Proof.Machine

namespace Sys2Proof

/-- The parts of the state that an instruction may write when it raises no fault. -/
def Instr.writes : Instr → List Machine.Part
  | .cls | .drw _ _ _ => [.display]
  | .call _ | .ret => [.pc, .stack]
  | .jp _ | .jpV0 _ | .seByte _ _ | .sneByte _ _ | .seReg _ _ _ | .sneReg _ _ _ | .skp _ | .sknp _ => [.pc]
  | .ldI _ | .addI _ | .ldF _ => [.index]
  | .ldB _ | .ldMemVx _ => [.mem]
  | .ldVxK _ => [.waiting, .pc]
  | .ldDtVx _ => [.delay]
  | .ldStVx _ => [.sound]
  | .rnd _ _ => [.draws]
  | .ldByte _ _ | .addByte _ _ | .ldReg _ _ | .orReg _ _ | .andReg _ _ | .xorReg _ _ | .addReg _ _ | .subReg _ _ | .shr _ _
  | .subnReg _ _ | .shl _ _ | .ldVxDt _ | .ldVxMem _ | .noOp _ => []

/-- The registers that an instruction may write: its destinations, and VF where it sets the flag (R22). -/
def Instr.WritesReg (r : Nibble) : Instr → Prop
  | .ldByte x _ | .addByte x _ | .ldReg x _ | .orReg x _ | .andReg x _ | .xorReg x _ | .rnd x _ | .ldVxDt x | .ldVxK x => r = x
  | .addReg x _ | .subReg x _ | .shr x _ | .subnReg x _ | .shl x _ => r = x ∨ r = Machine.regVF
  | .drw _ _ _ => r = Machine.regVF
  | .ldVxMem x => r.toNat ≤ x.toNat
  | _ => False

/-- The parts of the state that an instruction neither reads nor writes, of those that only a few instructions touch. -/
def Instr.idle : Instr → List Machine.Part
  | .call _ | .ret => [.sound, .waiting, .clock, .slot]
  | .ldStVx _ => [.stack, .waiting, .clock, .slot]
  | .ldVxK _ => [.stack, .sound, .clock, .slot]
  | .cls | .jp _ | .jpV0 _ | .seByte _ _ | .sneByte _ _ | .seReg _ _ _ | .sneReg _ _ _ | .ldByte _ _ | .addByte _ _
  | .ldReg _ _ | .orReg _ _ | .andReg _ _ | .xorReg _ _ | .addReg _ _ | .subReg _ _ | .shr _ _ | .subnReg _ _ | .shl _ _
  | .ldI _ | .rnd _ _ | .drw _ _ _ | .skp _ | .sknp _ | .ldVxDt _ | .ldDtVx _ | .addI _ | .ldF _ | .ldB _ | .ldMemVx _
  | .ldVxMem _ | .noOp _ => [.stack, .sound, .waiting, .clock, .slot]

end Sys2Proof

namespace Sys2Proof.Machine

theorem State.getV_setV_of_ne {r x : Nibble} (h : r ≠ x) (s : State) (b : Byte) : (s.setV x b).getV r = s.getV r := by
  rw [State.getV_setV, if_neg h.symm]

/-- Under no rule's condition, an instruction writes its own parts and registers only. -/
theorem exec_footprint {i : Instr} {s t : State} (hn : expectedFault i s = none) (h : exec i s = .next t) :
    t = { s.taking i.writes t with regs := t.regs } ∧ ∀ r, ¬i.WritesReg r → t.getV r = s.getV r := by
  cases i
  case ldByte x _ | addByte x _ | ldReg x _ | orReg x _ | andReg x _ | xorReg x _ | rnd x _ | ldVxDt x =>
    cases h; exact ⟨rfl, fun r hr => State.getV_setV_of_ne hr _ _⟩
  case addReg x _ | subReg x _ | shr x _ | subnReg x _ | shl x _ =>
    cases h
    refine ⟨rfl, fun r hr => ?_⟩
    obtain ⟨hx, hF⟩ := not_or.mp hr
    rw [State.getV_setFlagAndV, if_neg (Ne.symm hx), if_neg (Ne.symm hF)]
  case drw x y n =>
    cases (exec_drw_of_inBounds (expectedFault_drw_eq_none.mp hn)).symm.trans h
    exact ⟨rfl, fun r hr => State.getV_setV_of_ne hr _ _⟩
  case ldVxK x =>
    cases hk : s.lowestKey with
    | none => cases (exec_ldVxK_of_noKey hk).symm.trans h; exact ⟨rfl, fun _ _ => rfl⟩
    | some k =>
      cases (exec_ldVxK_of_key hk).symm.trans h
      exact ⟨rfl, fun r hr => State.getV_setV_of_ne hr _ _⟩
  case ldVxMem x =>
    cases (exec_ldVxMem_of_inBounds (expectedFault_ldVxMem_eq_none.mp hn)).symm.trans h
    refine ⟨rfl, fun r hr => ?_⟩
    rw [getV_setRegsFrom, if_neg (mt Nat.le_of_lt_succ hr)]
  case ret =>
    rcases stack_cases s.stack with hs | ⟨rest, a, hs⟩
    · exact absurd hs (expectedFault_ret_eq_none.mp hn)
    · cases (exec_ret_of_append hs).symm.trans h; exact ⟨rfl, fun _ _ => rfl⟩
  case skp x => cases (exec_skp_of_lt (expectedFault_skp_eq_none.mp hn)).symm.trans h; exact ⟨rfl, fun _ _ => rfl⟩
  case sknp x => cases (exec_sknp_of_lt (expectedFault_sknp_eq_none.mp hn)).symm.trans h; exact ⟨rfl, fun _ _ => rfl⟩
  case ldB x => cases (exec_ldB_of_inBounds (expectedFault_ldB_eq_none.mp hn)).symm.trans h; exact ⟨rfl, fun _ _ => rfl⟩
  case ldMemVx x =>
    cases (exec_ldMemVx_of_inBounds (expectedFault_ldMemVx_eq_none.mp hn)).symm.trans h
    exact ⟨rfl, fun _ _ => rfl⟩
  all_goals cases h; exact ⟨rfl, fun _ _ => rfl⟩

/-- R231-R233, R235: an instruction raises the fault of its rule, or raises none and writes its own parts and registers only. -/
theorem exec_cases {i : Instr} {s t : State} (h : exec i s = .next t) :
    (∃ kind info, expectedFault i s = some (kind, info) ∧ t = raiseIn s i kind info) ∨
    (expectedFault i s = none ∧ t = { s.taking i.writes t with regs := t.regs } ∧
      ∀ r, ¬i.WritesReg r → t.getV r = s.getV r) := by
  cases he : expectedFault i s with
  | none => exact .inr ⟨rfl, exec_footprint he h⟩
  | some f => exact .inl ⟨f.1, f.2, rfl, Host.Outcome.next.inj (h.symm.trans (exec_of_expectedFault he))⟩

/-! ## Parts that a meaning neither reads nor writes -/

/-- A meaning to which the parts `ps` mean nothing: it answers, and with those parts taken from any other state it answers the same,
those parts kept. -/
def BlindTo (ps : List Part) (act : State → Host.Outcome State Fault Refusal) : Prop :=
  ∀ s u : State, ∃ t, act s = .next t ∧ act (s.taking ps u) = .next (t.taking ps u)

theorem blindTo_ldVxK (x : Nibble) : BlindTo [.stack, .sound, .clock, .slot] (exec (.ldVxK x)) := by
  intro s u
  cases hk : s.lowestKey with
  | none => exact ⟨_, exec_ldVxK_of_noKey hk, exec_ldVxK_of_noKey hk⟩
  | some k => exact ⟨_, exec_ldVxK_of_key hk, exec_ldVxK_of_key hk⟩

theorem blindTo_ret : BlindTo [.sound, .waiting, .clock, .slot] (exec .ret) := by
  intro s u
  rcases stack_cases s.stack with hs | ⟨rest, a, hs⟩
  · have hfault {v : State} (hv : v.stack = []) := exec_of_expectedFault (expectedFault_ret_of_empty hv)
    exact ⟨_, hfault hs, hfault hs⟩
  · exact ⟨_, exec_ret_of_append hs, exec_ret_of_append hs⟩

theorem blindTo_keySkip (i : Instr) (x : Nibble) (wanted : Bool) :
    BlindTo [.stack, .sound, .waiting, .clock, .slot] fun s => keySkip i (s.getV x) wanted s := by
  intro s u
  rcases Nat.lt_or_ge (s.getV x).toNat 16 with hv | hv
  · exact ⟨_, keySkip_of_lt hv, keySkip_of_lt hv⟩
  · exact ⟨_, keySkip_of_ge hv, keySkip_of_ge hv⟩

/-- A checked access is blind where its act is: the bounds and the fault record depend on `I`, `pc` and the instruction alone
(R52, R232). -/
theorem blindTo_checkedAccess (i : Instr) (count : Nat) {act : State → State}
    (hact : ∀ s u : State, act (s.taking [.stack, .sound, .waiting, .clock, .slot] u) =
      (act s).taking [.stack, .sound, .waiting, .clock, .slot] u) :
    BlindTo [.stack, .sound, .waiting, .clock, .slot] fun s => checkedAccess i count s act := by
  intro s u
  rcases checkedAccess_cases i count s act with ⟨he, hin⟩ | ⟨he, h0, hout⟩
  · exact ⟨_, he, hact s u ▸ checkedAccess_of_inBounds hin⟩
  · exact ⟨_, he, checkedAccess_of_outOfBounds h0 hout⟩

/-- Every instruction answers, and its idle parts mean nothing to it. -/
theorem exec_blindTo_idle (i : Instr) : BlindTo i.idle (exec i) := by
  cases i
  case ret => exact blindTo_ret
  case ldVxK x => exact blindTo_ldVxK x
  case skp x => exact blindTo_keySkip _ x true
  case sknp x => exact blindTo_keySkip _ x false
  case drw x y n => exact blindTo_checkedAccess _ _ fun _ _ => rfl
  case ldB x => exact blindTo_checkedAccess _ _ fun _ _ => rfl
  case ldMemVx x => exact blindTo_checkedAccess _ _ fun _ _ => rfl
  case ldVxMem x => exact blindTo_checkedAccess _ _ fun _ _ => rfl
  all_goals exact fun _ _ => ⟨_, rfl, rfl⟩

end Sys2Proof.Machine

namespace Sys2Proof.Machine

/-! ## Fewer parts, and what follows from blindness -/

theorem State.taking_self (s : State) (ps : List Part) : s.taking ps s = s := by
  simp [State.taking]

/-- Taking parts from a state that has already taken fewer of them takes just those. -/
theorem State.taking_taking_of_subset {ps qs : List Part} (h : qs ⊆ ps) (s t u : State) :
    (t.taking ps s).taking ps (s.taking qs u) = (t.taking ps s).taking qs u := by
  have field {α : Type} (p : Part) (a b c : α) :
      (if p ∈ ps then (if p ∈ qs then a else b) else (if p ∈ ps then b else c)) =
        if p ∈ qs then a else if p ∈ ps then b else c := by
    by_cases hp : p ∈ ps
    · simp [hp]
    · have hq : p ∉ qs := fun hq => hp (h hq)
      simp [hp, hq]
  simp only [State.taking, field]

/-- A blind meaning keeps the parts to which it is blind. -/
theorem BlindTo.eq_taking {ps : List Part} {act : State → Host.Outcome State Fault Refusal} (h : BlindTo ps act)
    {s t : State} (hst : act s = .next t) : t = t.taking ps s := by
  obtain ⟨u, hu, hself⟩ := h s s
  obtain rfl := Host.Outcome.next.inj (hst.symm.trans hu)
  rw [s.taking_self] at hself
  exact Host.Outcome.next.inj (hst.symm.trans hself)

/-- A meaning that is blind to some parts is blind to fewer. -/
theorem BlindTo.mono {ps qs : List Part} {act : State → Host.Outcome State Fault Refusal} (h : BlindTo ps act)
    (hq : qs ⊆ ps) : BlindTo qs act := by
  intro s u
  obtain ⟨t, ht, hput⟩ := h s (s.taking qs u)
  have hs : s.taking ps (s.taking qs u) = s.taking qs u := by
    simpa only [s.taking_self] using State.taking_taking_of_subset hq s s u
  have htq : t.taking ps (s.taking qs u) = t.taking qs u := by
    simpa only [← h.eq_taking ht] using State.taking_taking_of_subset hq s t u
  exact ⟨t, ht, by rw [← hs, hput, htq]⟩

theorem BlindTo.answers_taking {ps : List Part} {act : State → Host.Outcome State Fault Refusal} (h : BlindTo ps act)
    {s t : State} (hst : act s = .next t) (u : State) : act (s.taking ps u) = .next (t.taking ps u) := by
  obtain ⟨t', ht', hput⟩ := h s u
  rwa [Host.Outcome.next.inj (hst.symm.trans ht')]

/-! ## What every instruction keeps -/

/-- R235, R81: every instruction answers a next state in every state. -/
theorem exec_answers (i : Instr) (s : State) : ∃ t, exec i s = .next t := by
  obtain ⟨t, ht, -⟩ := exec_blindTo_idle i s s
  exact ⟨t, ht⟩

theorem scheduler_subset_idle (i : Instr) : [.clock, .slot] ⊆ i.idle := by
  cases i <;> simp [Instr.idle]

/-- No instruction reads or writes the clock speed (R34). -/
theorem exec_blindTo_clock (i : Instr) : BlindTo [.clock] (exec i) :=
  (exec_blindTo_idle i).mono (List.Subset.trans (by simp) (scheduler_subset_idle i))

/-- No instruction reads or writes the batch's counter (R108, log 2). -/
theorem exec_blindTo_slot (i : Instr) : BlindTo [.slot] (exec i) :=
  (exec_blindTo_idle i).mono (List.Subset.trans (by simp) (scheduler_subset_idle i))

theorem exec_keeps_clockSpeed {i : Instr} {s t : State} (h : exec i s = .next t) : t.clockSpeed = s.clockSpeed :=
  (congrArg State.clockSpeed ((exec_blindTo_clock i).eq_taking h)).trans rfl

theorem exec_keeps_slot {i : Instr} {s t : State} (h : exec i s = .next t) : t.slot = s.slot :=
  (congrArg State.slot ((exec_blindTo_slot i).eq_taking h)).trans rfl

/-- Memory is kept where it is not among an instruction's own parts, by a fault too, which writes `pc` and the record alone. -/
theorem exec_keeps_mem {i : Instr} {s t : State} (hi : .mem ∉ i.writes) (h : exec i s = .next t) : t.mem = s.mem := by
  rcases exec_cases h with ⟨k, info, -, rfl⟩ | ⟨-, ht, -⟩
  · rfl
  · rw [ht]; exact if_neg hi

theorem exec_keeps_index {i : Instr} {s t : State} (hi : .index ∉ i.writes) (h : exec i s = .next t) : t.regI = s.regI := by
  rcases exec_cases h with ⟨k, info, -, rfl⟩ | ⟨-, ht, -⟩
  · rfl
  · rw [ht]; exact if_neg hi

theorem exec_keeps_stack {i : Instr} {s t : State} (hi : .stack ∉ i.writes) (h : exec i s = .next t) :
    t.stack = s.stack := by
  rcases exec_cases h with ⟨k, info, -, rfl⟩ | ⟨-, ht, -⟩
  · rfl
  · rw [ht]; exact if_neg hi

/-- Where no fault is due, an instruction that does not write `pc` leaves it. -/
theorem exec_keeps_pc {i : Instr} {s t : State} (hi : .pc ∉ i.writes) (hn : expectedFault i s = none)
    (h : exec i s = .next t) : t.pc = s.pc := by
  rw [(exec_footprint hn h).1]; exact if_neg hi

/-- Where no fault is due, none is recorded. -/
theorem exec_keeps_fault {i : Instr} {s t : State} (hn : expectedFault i s = none) (h : exec i s = .next t) :
    t.fault = s.fault := by
  rw [(exec_footprint hn h).1]
  have hi : Part.fault ∉ i.writes := by cases i <;> simp [Instr.writes]
  exact if_neg hi

/-- The fault after an instruction is the one its rule gives (R231-R233, R235). -/
theorem exec_fault {i : Instr} {s t : State} (h : exec i s = .next t) (hf : s.fault = none) :
    t.fault = (expectedFault i s).map fun f => ⟨f.1, s.pc - 2, some (encode i), f.2⟩ := by
  rcases exec_cases h with ⟨k, info, he, rfl⟩ | ⟨hn, -⟩
  · rw [he]; rfl
  · rw [exec_keeps_fault hn h, hf, hn]; rfl

end Sys2Proof.Machine

/-! # Encoding (30_encoding.md): the decoder and the encoder undo one another -/

namespace Sys2Proof

/-- The check of a no-op's word accepts the words that decode to the no-op (R80). -/
theorem unrecognised_iff {w : Word} : unrecognised w = true ↔ decodeWord w = .noOp w := by
  rw [decodeWord_eq_noOp_iff]
  simp [unrecognised, classFSelectors, fieldClass, fieldN, fieldKK, or_assoc, and_assoc]

theorem decodeWord_of_class8 {w : Word} (h : fieldClass w = 0x8#4) : decodeWord w = decodeClass8 w := by
  simp [decodeWord, h]

theorem decodeWord_of_classE {w : Word} (h : fieldClass w = 0xE#4) : decodeWord w = decodeClassE w := by
  simp [decodeWord, h]

theorem decodeWord_of_classF {w : Word} (h : fieldClass w = 0xF#4) : decodeWord w = decodeClassF w := by
  simp [decodeWord, h]

/-- R71, R73, R82: the class and the selector of a row's pattern lead to that row, and the pattern's fields are the operands. -/
theorem decodeWord_encode {i : Instr} (h : i.wellFormed = true) : decodeWord (encode i) = i := by
  cases i
  case noOp w => exact unrecognised_iff.mp h
  case cls | ret => decide
  case ldReg | orReg | andReg | xorReg | addReg | subReg | shr | subnReg | shl =>
    rw [encode, decodeWord_of_class8 (fieldClass_nibbles ..)]
    simp [decodeClass8]
  case skp | sknp =>
    rw [encode, decodeWord_of_classE (fieldClass_byte ..)]
    simp [decodeClassE]
  case ldVxDt | ldVxK | ldDtVx | ldStVx | addI | ldF | ldB | ldMemVx | ldVxMem =>
    rw [encode, decodeWord_of_classF (fieldClass_byte ..)]
    simp [decodeClassF]
  all_goals simp [encode, decodeWord]

/-- Settles O57: the word decodes to its instruction, and the bytes of a word decode as the word does. -/
theorem decodeUndoesEncode : Obligations.DecodeUndoesEncode := by
  unfold Obligations.DecodeUndoesEncode
  intro i h
  exact ⟨decodeWord_encode h, fun rest => by rw [decodeBytes_encodeBytes, decodeWord_encode h]⟩

section
variable {w : Word}

/-! ## A word is the pattern of its class (R71) -/

theorem addr_pattern {c : Nibble} (h : fieldClass w = c) : (c ++ fieldNNN w : Word) = w := h ▸ addr_eta w

theorem byte_pattern {c : Nibble} {k : Byte} (h : fieldClass w = c) (hk : fieldKK w = k) :
    (c ++ fieldX w ++ k : Word) = w := h ▸ hk ▸ byte_eta w

theorem nibbles_pattern {c n : Nibble} (h : fieldClass w = c) (hn : fieldN w = n) :
    (c ++ fieldX w ++ fieldY w ++ n : Word) = w := h ▸ hn ▸ nibbles_eta w

/-- A branch of the dispatch tree forgets no bit if neither side does. -/
theorem encode_ite {c : Prop} [Decidable c] {i j : Instr} (hi : c → encode i = w) (hj : ¬c → encode j = w) :
    encode (if c then i else j) = w := by
  split
  · exact hi ‹c›
  · exact hj ‹¬c›

theorem encode_decodeClass0 : encode (decodeClass0 w) = w :=
  encode_ite Eq.symm fun _ => encode_ite Eq.symm fun _ => rfl

theorem encode_decodeClass8 (h : fieldClass w = 0x8) : encode (decodeClass8 w) = w := by
  have hw {n : Nibble} (hn : fieldN w = n) := nibbles_pattern h hn
  refine encode_ite hw fun _ => encode_ite hw fun _ => encode_ite hw fun _ => encode_ite hw fun _ => ?_
  refine encode_ite hw fun _ => encode_ite hw fun _ => encode_ite hw fun _ => encode_ite hw fun _ => ?_
  exact encode_ite hw fun _ => rfl

theorem encode_decodeClassE (h : fieldClass w = 0xE) : encode (decodeClassE w) = w :=
  encode_ite (byte_pattern h) fun _ => encode_ite (byte_pattern h) fun _ => rfl

theorem encode_decodeClassF (h : fieldClass w = 0xF) : encode (decodeClassF w) = w := by
  have hw {k : Byte} (hk : fieldKK w = k) := byte_pattern h hk
  refine encode_ite hw fun _ => encode_ite hw fun _ => encode_ite hw fun _ => encode_ite hw fun _ => ?_
  refine encode_ite hw fun _ => encode_ite hw fun _ => encode_ite hw fun _ => encode_ite hw fun _ => ?_
  exact encode_ite hw fun _ => rfl

/-- The class that is left when the other fifteen are taken away. -/
theorem class_eq_F {c : Nibble} (h : c ∉ [0x0#4, 0x1#4, 0x2#4, 0x3#4, 0x4#4, 0x5#4, 0x6#4, 0x7#4, 0x8#4, 0x9#4, 0xA#4,
    0xB#4, 0xC#4, 0xD#4, 0xE#4]) : c = 0xF#4 := by
  revert c; decide

/-- R82: no bit of a word is forgotten. -/
theorem encode_decodeWord (w : Word) : encode (decodeWord w) = w := by
  unfold decodeWord
  refine encode_ite (fun _ => encode_decodeClass0) fun h0 => ?_
  refine encode_ite addr_pattern fun h1 => encode_ite addr_pattern fun h2 => ?_
  refine encode_ite (byte_pattern · rfl) fun h3 => encode_ite (byte_pattern · rfl) fun h4 => ?_
  refine encode_ite (nibbles_pattern · rfl) fun h5 => ?_
  refine encode_ite (byte_pattern · rfl) fun h6 => encode_ite (byte_pattern · rfl) fun h7 => ?_
  refine encode_ite encode_decodeClass8 fun h8 => encode_ite (nibbles_pattern · rfl) fun h9 => ?_
  refine encode_ite addr_pattern fun hA => encode_ite addr_pattern fun hB => ?_
  refine encode_ite (byte_pattern · rfl) fun hC => encode_ite (nibbles_pattern · rfl) fun hD => ?_
  refine encode_ite encode_decodeClassE fun hE => encode_decodeClassF (class_eq_F ?_)
  simpa using ⟨h0, h1, h2, h3, h4, h5, h6, h7, h8, h9, hA, hB, hC, hD, hE⟩

end

/-- R80, R82: the decoder answers the no-op for the words that the check accepts, and for no others. -/
theorem wellFormed_decodeWord (w : Word) : (decodeWord w).wellFormed = true := by
  cases hd : decodeWord w with
  | noOp v =>
    have hv : v = w := by simpa [hd, encode] using encode_decodeWord w
    exact unrecognised_iff.mpr (hv ▸ hd)
  | _ => rfl

/-- Settles O58: each class's branch keeps every field of the word, so a no-op carries the word itself, which the check
accepts. -/
theorem encodeUndoesDecode : Obligations.EncodeUndoesDecode := by
  unfold Obligations.EncodeUndoesDecode
  exact fun w => ⟨encode_decodeWord w, wellFormed_decodeWord w⟩

/-- Settles O59: the decoder computes on each of the eighteen words. -/
theorem wordsOfEachClassDecode : Obligations.WordsOfEachClassDecode := by
  unfold Obligations.WordsOfEachClassDecode
  decide

end Sys2Proof

/-! # The invariant: every instruction, step, frame and host call keeps it -/

namespace Sys2Proof.Machine

/-! ## What an instruction does to each range -/

/-- Only the two stores write memory, and they stay inside it (R52, R60). -/
theorem exec_keeps_memCanonical {i : Instr} {s t : State} (hm : Memory.wf s.mem) (h : exec i s = .next t) :
    Memory.wf t.mem := by
  rcases exec_cases h with ⟨k, info, -, rfl⟩ | ⟨hn, -⟩
  · exact hm
  cases i
  case ldB x =>
    have hI := expectedFault_ldB_eq_none.mp hn
    cases (exec_ldB_of_inBounds hI).symm.trans h
    exact Memory.wf_writeBytes hm (Nat.succ_le_of_lt hI)
  case ldMemVx x =>
    have hI := expectedFault_ldMemVx_eq_none.mp hn
    cases (exec_ldMemVx_of_inBounds hI).symm.trans h
    exact Memory.wf_writeBytes hm (Nat.le_trans (Nat.add_le_add_left (List.length_take_le _ _) _) hI)
  all_goals rwa [exec_keeps_mem (by simp [Instr.writes]) h]

/-- `I` is loaded with 12 bits, a sum modulo 4096, or five times a byte (R23). -/
theorem exec_keeps_indexRange {i : Instr} {s t : State} (hI : s.regI.toNat < 4096) (h : exec i s = .next t) :
    t.regI.toNat < 4096 := by
  cases i
  case ldI nnn =>
    cases (exec_ldI nnn s).symm.trans h
    have := nnn.isLt
    simp only [BitVec.toNat_setWidth]; omega
  case addI x =>
    cases (exec_addI x s).symm.trans h
    simp only [BitVec.toNat_ofNat]; omega
  case ldF x =>
    cases (exec_ldF x s).symm.trans h
    have := (s.getV x).isLt
    rw [BitVec.toNat_ofNat, Nat.mod_eq_of_lt (by omega)]; omega
  all_goals rwa [exec_keeps_index (by simp [Instr.writes]) h]

/-- CALL pushes the advanced `pc`, RET only pops (R120, R122). -/
theorem exec_keeps_stackRange {i : Instr} {s t : State} (hst : ∀ a ∈ s.stack, a.toNat ≤ 4096) (hpc : s.pc.toNat ≤ 4096)
    (h : exec i s = .next t) : ∀ a ∈ t.stack, a.toNat ≤ 4096 := by
  cases i
  case call nnn =>
    cases (exec_call nnn s).symm.trans h
    intro a ha
    rcases (by simpa using ha : a ∈ s.stack ∨ a = s.pc) with ha | rfl
    · exact hst a ha
    · exact hpc
  case ret =>
    rcases stack_cases s.stack with hs | ⟨rest, b, hs⟩
    · cases (exec_of_expectedFault (expectedFault_ret_of_empty hs)).symm.trans h
      exact hst
    · cases (exec_ret_of_append hs).symm.trans h
      exact fun a ha => hst a (by rw [hs]; exact List.mem_append_left _ ha)
  all_goals rwa [exec_keeps_stack (by simp [Instr.writes]) h]

/-- A skip goes 2 further at most. -/
theorem skipIf_pc_toNat_le {s : State} (taken : Bool) (hpc : s.pc.toNat ≤ 4096) : (s.skipIf taken).pc.toNat ≤ 4098 := by
  cases taken <;> simp <;> bv_omega

/-- `pc` after an instruction is as it was, 2 back, 2 further, a 12-bit target, such a target plus a byte, or a return address
(R24). -/
theorem exec_pc_le {i : Instr} {s t : State} (hst : ∀ a ∈ s.stack, a.toNat ≤ 4096) (h2 : 2 ≤ s.pc.toNat)
    (hpc : s.pc.toNat ≤ 4096) (h : exec i s = .next t) : t.pc.toNat ≤ 4350 := by
  have hback : (s.pc - 2).toNat ≤ 4350 := by bv_omega
  have hskip (c : Bool) : (s.skipIf c).pc.toNat ≤ 4350 := Nat.le_trans (skipIf_pc_toNat_le c hpc) (by omega)
  rcases exec_cases h with ⟨k, info, -, rfl⟩ | ⟨hn, -⟩
  · exact hback
  cases i
  case jp nnn | call nnn =>
    cases h
    have := nnn.isLt
    simp only [State.jumpTo_pc, BitVec.toNat_setWidth]; omega
  case jpV0 nnn =>
    cases (exec_jpV0 nnn s).symm.trans h
    have h1 := nnn.isLt
    have h2 := (s.getV 0).isLt
    rw [State.jumpTo_pc, State.offsetTarget_toNat]; omega
  case ret =>
    rcases stack_cases s.stack with hs | ⟨rest, a, hs⟩
    · exact absurd hs (expectedFault_ret_eq_none.mp hn)
    · cases (exec_ret_of_append hs).symm.trans h
      exact Nat.le_trans (hst a (by simp [hs])) (by omega)
  case seByte | sneByte | seReg | sneReg => cases h; exact hskip _
  case skp x => cases (exec_skp_of_lt (expectedFault_skp_eq_none.mp hn)).symm.trans h; exact hskip _
  case sknp x => cases (exec_sknp_of_lt (expectedFault_sknp_eq_none.mp hn)).symm.trans h; exact hskip _
  case ldVxK x =>
    cases hk : s.lowestKey with
    | none => cases (exec_ldVxK_of_noKey hk).symm.trans h; exact hback
    | some k => cases (exec_ldVxK_of_key hk).symm.trans h; exact Nat.le_trans hpc (by omega)
  all_goals rw [exec_keeps_pc (by simp [Instr.writes]) hn h]; omega

/-- The record of a rule's fault says of its kind what the rule says (R230-R233). -/
theorem sound_of_expectedFault {i : Instr} {s : State} {kind : FaultKind} {info : Option Nat} (a : Word)
    (h : expectedFault i s = some (kind, info)) : FaultRecord.Sound ⟨kind, a, some (encode i), info⟩ := by
  cases i
  case ret =>
    obtain ⟨-, rfl, rfl⟩ : s.stack = [] ∧ .stackUnderflow = kind ∧ none = info := by simpa [expectedFault] using h
    exact ⟨rfl, rfl⟩
  case skp x | sknp x =>
    obtain ⟨hv, rfl, rfl⟩ : 15 < (s.getV x).toNat ∧ .keyIndexOutOfRange = kind ∧ some (s.getV x).toNat = info := by
      simpa [expectedFault] using h
    have := (s.getV x).isLt
    exact ⟨by simp, _, rfl, hv, by omega⟩
  case drw | ldB | ldMemVx | ldVxMem =>
    simp only [expectedFault, Option.ite_none_right_eq_some, Option.some.injEq, Prod.mk.injEq] at h
    obtain ⟨hI, rfl, rfl⟩ := h
    exact ⟨⟨_, rfl, by omega⟩, by simp⟩
  all_goals cases h

end Sys2Proof.Machine

namespace Sys2Proof.Machine

/-! ## The invariant of one instruction, a step, and a frame -/

/-- The record after an instruction names the place at which the machine stands, and is sound (R230). -/
theorem exec_faultSound {i : Instr} {s t : State} {r : FaultRecord} (hf : s.fault = none) (h : exec i s = .next t)
    (hr : t.fault = some r) : r.pc = t.pc ∧ r.Sound := by
  rcases exec_cases h with ⟨kind, info, he, rfl⟩ | ⟨hn, -⟩
  · cases hr
    exact ⟨rfl, sound_of_expectedFault _ he⟩
  · rw [exec_keeps_fault hn h, hf] at hr
    cases hr

theorem executeOne_keeps_clockSpeed {s t : State} (h : executeOne s = .next t) : t.clockSpeed = s.clockSpeed := by
  rcases executeOne_cases h with ⟨-, rfl⟩ | ⟨-, -, rfl⟩ | ⟨-, -, he⟩
  · rfl
  · rfl
  · rw [exec_keeps_clockSpeed he, State.advance_clockSpeed]

theorem executeOne_keeps_slot {s t : State} (h : executeOne s = .next t) : t.slot = s.slot := by
  rcases executeOne_cases h with ⟨-, rfl⟩ | ⟨-, -, rfl⟩ | ⟨-, -, he⟩
  · rfl
  · rfl
  · rw [exec_keeps_slot he, State.advance_slot]

/-- `execute_one` keeps the invariant, with any count of the batch after it that a fault sets to 0. -/
theorem executeOne_keeps_inv {s t : State} (hs : Inv s) (h : executeOne s = .next t) {k : Nat} (hk : k ≤ s.batchSize)
    (hz : t.fault ≠ none → k = 0) : Inv { t with slot := k } := by
  rcases executeOne_cases h with ⟨hf, rfl⟩ | ⟨hf, hpc, rfl⟩ | ⟨hf, hpc, he⟩
  · exact { hs with
      slotRange := hk
      faultSound := fun r hr => ⟨hz hf, (hs.faultSound r hr).2⟩ }
  · refine { hs with slotRange := hk, faultSound := ?_ }
    rintro r ⟨⟩
    exact ⟨hz (by simp [State.raiseFetch]), rfl, ⟨_, rfl, Nat.succ_le_succ hpc⟩, fun _ => rfl⟩
  · have hadv : s.advance.pc.toNat = s.pc.toNat + 2 := by rw [State.advance_pc]; bv_omega
    have hclock : t.clockSpeed = s.clockSpeed := (exec_keeps_clockSpeed he).trans s.advance_clockSpeed
    have hst : ∀ a ∈ s.advance.stack, a.toNat ≤ 4096 := hs.stackRange
    have hmem' := exec_keeps_memCanonical (s := s.advance) hs.memCanonical he
    have hindex' := exec_keeps_indexRange (s := s.advance) hs.indexRange he
    have hpc' := exec_pc_le hst (by omega) (by omega) he
    have hst' := exec_keeps_stackRange hst (by omega) he
    have hslot' : k ≤ t.clockSpeed / 60 := hclock ▸ hk
    have hfault' {r : FaultRecord} (hr : t.fault = some r) : k = 0 ∧ r.pc = t.pc ∧ r.Sound :=
      ⟨hz (by simp [hr]), exec_faultSound (s := s.advance) hf he hr⟩
    exact ⟨hmem', hindex', hpc', hst', hclock ▸ hs.clockPositive, hslot', fun r hr => hfault' hr⟩

theorem Inv.timerTick {s : State} (hs : Inv s) : Inv s.timerTick := { hs with }

theorem Inv.endFrame {s : State} (hs : Inv s) : Inv s.endFrame :=
  { hs with
    slotRange := Nat.zero_le _
    faultSound := fun r hr => ⟨rfl, (hs.faultSound r hr).2⟩ }

theorem State.batchDone_eq_false_iff (s : State) :
    s.batchDone = false ↔ s.slot < s.clockSpeed / 60 ∧ s.pc.toNat ≤ 4094 := by
  rw [← Bool.not_eq_true, s.batchDone_iff]; omega

/-- A fault ends the frame (R110). -/
theorem State.countSlot_of_fault {s : State} {r : FaultRecord} (h : s.fault = some r) :
    s.countSlot = { s with slot := 0 } := by
  simp [State.countSlot, h]

/-- An instruction without a fault is one of the batch (R108). -/
theorem State.countSlot_of_noFault {s : State} (h : s.fault = none) : s.countSlot = { s with slot := s.slot + 1 } := by
  simp [State.countSlot, h]

/-- A step keeps the invariant: the frame's end, or an instruction of the batch and its count. -/
theorem step_keeps_inv {s t : State} (hs : Inv s) (h : step s = .next t) : Inv t := by
  obtain ⟨-, ⟨-, rfl⟩ | ⟨hd, u, hu, rfl⟩⟩ := step_cases h
  · exact hs.endFrame
  · have hslot : s.slot < s.batchSize := (s.batchDone_eq_false_iff.mp hd).1
    cases hf : u.fault with
    | some r =>
      rw [State.countSlot_of_fault hf]
      exact executeOne_keeps_inv hs hu (Nat.zero_le _) fun _ => rfl
    | none =>
      rw [State.countSlot_of_noFault hf, executeOne_keeps_slot hu]
      exact executeOne_keeps_inv hs hu hslot fun hne => absurd hf hne

/-- Settles O48: the end of a frame keeps the ranges, and `execute_one` keeps them instruction by instruction. -/
theorem everyStepKeepsTheInvariant : Obligations.EveryStepKeepsTheInvariant := by
  unfold Obligations.EveryStepKeepsTheInvariant
  exact fun s t hs h => step_keeps_inv hs h

/-! ## The invariant of the host's calls and of every run -/

theorem inv_afterReset {n : Nat} (hn : 0 < n) : Inv (State.afterReset n) where
  memCanonical := Memory.wf_nil
  indexRange := by simp [State.afterReset]
  pcRange := by show 512 % 65536 ≤ 4350; decide
  stackRange := fun a ha => absurd ha List.not_mem_nil
  clockPositive := hn
  slotRange := Nat.zero_le _
  faultSound := fun r hr => by cases hr

/-- Settles O47: each range holds of the values of R40. -/
theorem newMachineSatisfiesTheInvariant : Obligations.NewMachineSatisfiesTheInvariant := by
  unfold Obligations.NewMachineSatisfiesTheInvariant
  exact fun n hn => inv_afterReset hn

/-- Between frames, `execute_one` keeps the invariant as it is. -/
theorem executeOne_keeps_inv_between_frames {s t : State} (hs : Inv s ∧ s.slot = 0) (h : executeOne s = .next t) :
    Inv t ∧ t.slot = 0 := by
  have hslot : t.slot = 0 := (executeOne_keeps_slot h).trans hs.2
  have ht : { t with slot := 0 } = t := by rw [← hslot]
  exact ⟨ht ▸ executeOne_keeps_inv hs.1 h (Nat.zero_le _) fun _ => rfl, hslot⟩

theorem loadProgram_keeps_inv {bytes : List Byte} {s t : State} (hs : Inv s) (h : loadProgram bytes s = some t) : Inv t := by
  obtain ⟨hfit, rfl⟩ := loadProgram_eq_some h
  exact { hs with memCanonical := Memory.wf_writeBytes hs.memCanonical hfit }

theorem hostCall_keeps_inv {c : HostCall} {s t : State} {r : HostReply} (hs : Inv s) (h : hostCall c s = .next (t, r)) :
    Inv t := by
  obtain ⟨hslot, rfl | ⟨n, -, hn, rfl⟩ | ⟨bytes, -, -, hl⟩ | ⟨k, b, -, -, rfl⟩ | ⟨-, hr⟩ | ⟨-, he⟩⟩ := hostCall_cases h
  · exact hs
  · exact { inv_afterReset (Nat.pos_of_ne_zero hn) with }
  · exact loadProgram_keeps_inv hs hl
  · exact { hs with }
  · exact (runFrame_preserves (P := fun u => Inv u ∧ u.slot = 0) (fun _ _ => executeOne_keeps_inv_between_frames)
      (fun _ hu => ⟨hu.1.timerTick, hu.2⟩) ⟨hs, hslot⟩ hr).1
  · exact (executeOne_keeps_inv_between_frames ⟨hs, hslot⟩ he).1

/-- Settles O49: each of the host's calls has its one effect on the state, and each effect keeps the ranges. -/
theorem everyHostCallKeepsTheInvariant : Obligations.EveryHostCallKeepsTheInvariant := by
  unfold Obligations.EveryHostCallKeepsTheInvariant
  exact fun c s t r hs h => hostCall_keeps_inv hs h

theorem executeOne_answers (s : State) : ∃ t, executeOne s = .next t := by
  cases hf : s.fault with
  | some r => exact ⟨s, executeOne_of_fault hf⟩
  | none =>
    rcases Nat.lt_or_ge 4094 s.pc.toNat with hpc | hpc
    · exact ⟨_, executeOne_of_past hf hpc⟩
    · exact executeOne_of_fetch hf hpc ▸ exec_answers _ _

/-- A step that runs an instruction counts it (R108). -/
theorem step_of_executeOne {s t : State} (hf : s.fault = none) (hd : s.batchDone = false) (h : executeOne s = .next t) :
    step s = .next t.countSlot := by
  simp [step, schedulerMove, hf, hd, h]

theorem step_answers {s : State} (hf : s.fault = none) : ∃ t, step s = .next t := by
  cases hd : s.batchDone with
  | true => exact ⟨_, step_of_batchDone hf (s.batchDone_iff.mp hd)⟩
  | false =>
    obtain ⟨t, ht⟩ := executeOne_answers s
    exact ⟨_, step_of_executeOne hf hd ht⟩

theorem Reachable.inv {s : State} (h : Reachable s) : Inv s := by
  induction h with
  | reset n hn => exact inv_afterReset hn
  | step _ hst ih => exact step_keeps_inv ih hst
  | host _ hc ih => exact hostCall_keeps_inv ih hc

/-- Settles O50: the invariant is carried along the run, and a machine without a fault has a next state. -/
theorem reachableStatesSatisfyTheInvariant : Obligations.ReachableStatesSatisfyTheInvariant := by
  unfold Obligations.ReachableStatesSatisfyTheInvariant
  intro s h
  refine ⟨h.inv, ?_⟩
  by_cases hf : s.fault = none
  · exact .inr (step_answers hf)
  · exact .inl hf

end Sys2Proof.Machine

/-! # Faults (60_exceptions.md): when one is raised, and what it leaves -/

namespace Sys2Proof.Machine

/-- Under a rule's condition the instruction answers, and its answer is that fault and nothing else (R104, R230). -/
theorem exec_raises {i : Instr} {s : State} {kind : FaultKind} {info : Option Nat}
    (h : expectedFault i s = some (kind, info)) : ∃ t, exec i s = .next t ∧ Raised s t kind (encode i) info :=
  ⟨_, exec_of_expectedFault h, raised_raiseIn s i kind info⟩

/-- A fault recorded by an instruction is the one its rule gives. -/
theorem expectedFault_of_exec {i : Instr} {s t : State} {r : FaultRecord} (h : exec i s = .next t) (hf : s.fault = none)
    (hr : t.fault = some r) : expectedFault i s = some (r.kind, r.info) ∧ t = raiseIn s i r.kind r.info := by
  rcases exec_cases h with ⟨kind, info, he, rfl⟩ | ⟨hn, -⟩
  · cases hr
    exact ⟨he, rfl⟩
  · rw [exec_keeps_fault hn h, hf] at hr
    cases hr

/-- Only RET's rule has the kind `StackUnderflow`, and its condition is the empty stack (R231). -/
theorem eq_ret_of_stackUnderflow {i : Instr} {s : State} {info : Option Nat}
    (h : expectedFault i s = some (.stackUnderflow, info)) : i = .ret ∧ s.stack = [] := by
  cases i
  case ret => exact ⟨rfl, by simpa [expectedFault] using And.left (Option.ite_none_right_eq_some.mp h)⟩
  case drw | ldB | ldMemVx | ldVxMem | skp | sknp => simp [expectedFault] at h
  all_goals cases h

/-- Settles O2: RET's condition is the empty stack, and no other rule has that kind. -/
theorem onlyRetOnEmptyStackUnderflows : Obligations.OnlyRetOnEmptyStackUnderflows := by
  unfold Obligations.OnlyRetOnEmptyStackUnderflows
  refine ⟨fun s hs => exec_raises (expectedFault_ret_of_empty hs), fun i s t r h hf hr hk => ?_⟩
  have he := (expectedFault_of_exec h hf hr).1
  exact eq_ret_of_stackUnderflow (hk ▸ he)

/-- Settles O20: each of the four ranges that reach 4096 meets its rule's condition. -/
theorem outOfBoundsAccessFaults : Obligations.OutOfBoundsAccessFaults := by
  unfold Obligations.OutOfBoundsAccessFaults
  intro x y n s
  exact ⟨fun h => exec_raises (i := .ldB x) (if_pos h), fun h => exec_raises (i := .ldMemVx x) (if_pos h),
    fun h => exec_raises (i := .ldVxMem x) (if_pos h), fun h0 h => exec_raises (i := .drw x y n) (if_pos ⟨h0, h⟩)⟩

/-- Settles O28: a register above 15 meets the condition of both key skips. -/
theorem keyIndexAboveFifteenFaults : Obligations.KeyIndexAboveFifteenFaults := by
  unfold Obligations.KeyIndexAboveFifteenFaults
  intro x s h
  exact ⟨exec_raises (i := .skp x) (if_pos h), exec_raises (i := .sknp x) (if_pos h)⟩

/-- Settles O37: a fault that is recorded was raised by the instruction, and raising writes the record alone. -/
theorem faultsAreAtomic : Obligations.FaultsAreAtomic := by
  unfold Obligations.FaultsAreAtomic
  intro i s t h hf ht
  obtain ⟨r, hr⟩ := Option.ne_none_iff_exists'.mp ht
  have hraise := (expectedFault_of_exec h hf hr).2
  exact ⟨r.kind, r.info, hraise ▸ raised_raiseIn s i r.kind r.info⟩

/-- Settles O39: the fault after an instruction is its rule's, or none. -/
theorem faultsArisePreciselyWhenTheRulesSay : Obligations.FaultsArisePreciselyWhenTheRulesSay := by
  unfold Obligations.FaultsArisePreciselyWhenTheRulesSay
  exact fun i s t h hf => exec_fault h hf

/-- Settles O40: the blindness of each instruction holds of an answer in every state. -/
theorem everyInstructionIsExecuted : Obligations.EveryInstructionIsExecuted := by
  unfold Obligations.EveryInstructionIsExecuted
  exact exec_answers

theorem batchDone_eq_false_of_running {s : State} (h : Running s) : s.batchDone = false :=
  s.batchDone_eq_false_iff.mpr ⟨h.2.2, h.2.1⟩

/-- In a running state a step is the instruction fetched, and its count (R100-R103, R108). -/
theorem step_of_running {s t : State} (hs : Running s) (h : exec (decodeWord s.fetchWord) s.advance = .next t) :
    step s = .next t.countSlot :=
  step_of_executeOne hs.1 (batchDone_eq_false_of_running hs) ((executeOne_of_fetch hs.1 hs.2.1).trans h)

/-- After the advance, raising in the instruction fetched is the state before it with the record written (R104, R230). -/
theorem raiseIn_advance (s : State) (kind : FaultKind) (info : Option Nat) :
    raiseIn s.advance (decodeWord s.fetchWord) kind info =
      { s with fault := some ⟨kind, s.pc, some s.fetchWord, info⟩ } := by
  have hpc : s.advance.ownAddress = s.pc := BitVec.add_sub_cancel s.pc 2
  rw [raiseIn, hpc, encode_decodeWord]; rfl

/-- Settles O38: the instruction fetched raised the fault, so the state before it has the record written, and the count ends
the frame. -/
theorem faultingStepIsPrecise : Obligations.FaultingStepIsPrecise := by
  unfold Obligations.FaultingStepIsPrecise
  intro s t r hs h hr
  obtain ⟨u, hu⟩ := exec_answers (decodeWord s.fetchWord) s.advance
  obtain rfl := Host.Outcome.next.inj (h.symm.trans (step_of_running hs hu))
  rw [State.countSlot_fault] at hr
  have hraise := (expectedFault_of_exec hu hs.1 hr).2
  rw [raiseIn_advance] at hraise
  have hrec : ⟨r.kind, s.pc, some s.fetchWord, r.info⟩ = r := by simpa [hraise] using hr
  exact ⟨by rw [← hrec], by rw [← hrec], by rw [State.countSlot_of_fault hr, hraise, hrec]⟩

/-- Settles O41: past 4094 `execute_one` raises the fault of the fetch, at `pc` itself. -/
theorem fetchPastTheEndFaults : Obligations.FetchPastTheEndFaults := by
  unfold Obligations.FetchPastTheEndFaults
  exact fun s hf hpc => ⟨_, executeOne_of_past hf hpc, rfl, changesOnly_of_taking rfl⟩

end Sys2Proof.Machine

/-! # Control transfer (41_control.md) -/

namespace Sys2Proof.Machine

theorem setWidth_addr_toNat (nnn : Addr) : (nnn.setWidth 16).toNat = nnn.toNat := by
  have := nnn.isLt
  rw [BitVec.toNat_setWidth, Nat.mod_eq_of_lt (by omega)]

/-- Settles O1: the pop gives the top and the rest, and the jump goes to the top. -/
theorem retPopsTheReturnAddress : Obligations.RetPopsTheReturnAddress := by
  unfold Obligations.RetPopsTheReturnAddress
  exact fun s rest a hs => ⟨_, exec_ret_of_append hs, rfl, rfl, changesOnly_of_taking rfl⟩

/-- Settles O3: a 12-bit target keeps its value in 16 bits, and so does its sum with a byte. -/
theorem jumpsSetThePc : Obligations.JumpsSetThePc := by
  unfold Obligations.JumpsSetThePc
  intro nnn s
  exact ⟨⟨_, exec_jp nnn s, setWidth_addr_toNat nnn, changesOnly_of_taking rfl⟩,
    ⟨_, exec_call nnn s, setWidth_addr_toNat nnn, rfl, changesOnly_of_taking rfl⟩,
    ⟨_, exec_jpV0 nnn s, s.offsetTarget_toNat nnn, changesOnly_of_taking rfl⟩⟩

/-- Settles O4: the CALL leaves its stack with the advanced `pc` on top, which is what RET pops. -/
theorem returnUndoesCall : Obligations.ReturnUndoesCall := by
  unfold Obligations.ReturnUndoesCall
  exact fun nnn s => ⟨_, exec_call nnn s, fun u hu => ⟨_, exec_ret_of_append hu, rfl, rfl⟩⟩

/-- A skip goes 2 further when it is taken, stays when it is not, and changes nothing but `pc`. -/
theorem skipIf_spec {s : State} {taken : Bool} {p q : Prop} (hp : p → taken = true) (hq : q → taken = false) :
    (p → (s.skipIf taken).pc = s.pc + 2) ∧ (q → (s.skipIf taken).pc = s.pc) ∧
      ChangesOnly [] [.pc] s (s.skipIf taken) :=
  ⟨fun h => by simp [hp h], fun h => by simp [hq h], changesOnly_of_taking rfl⟩

/-- Settles O5: each of the four is a skip taken when its comparison holds. -/
theorem registerSkipsCompare : Obligations.RegisterSkipsCompare := by
  unfold Obligations.RegisterSkipsCompare
  intro x y z kk s
  exact ⟨⟨_, exec_seByte x kk s, skipIf_spec beq_iff_eq.mpr beq_eq_false_iff_ne.mpr⟩,
    ⟨_, exec_sneByte x kk s, skipIf_spec bne_iff_ne.mpr bne_eq_false_iff_eq.mpr⟩,
    ⟨_, exec_seReg x y z s, skipIf_spec beq_iff_eq.mpr beq_eq_false_iff_ne.mpr⟩,
    ⟨_, exec_sneReg x y z s, skipIf_spec bne_iff_ne.mpr bne_eq_false_iff_eq.mpr⟩⟩

end Sys2Proof.Machine

/-! # Register arithmetic and logic (42_alu.md) -/

namespace Sys2Proof.Machine

/-- Settles O8: the sum of two bytes is taken modulo 256, and one register is written. -/
theorem addImmediateWrapsWithoutFlag : Obligations.AddImmediateWrapsWithoutFlag := by
  unfold Obligations.AddImmediateWrapsWithoutFlag
  intro x kk s
  refine ⟨_, exec_addByte x kk s, ?_, fun hx => ?_, ChangesOnly.setV s x _⟩
  · simp
  · simp [hx]

/-- Settles O9: the three operations are bit by bit, and one register is written. -/
theorem logicActsBitByBit : Obligations.LogicActsBitByBit := by
  unfold Obligations.LogicActsBitByBit
  intro x y s
  have hframe (b : Byte) : ChangesOnly [x] [] s (s.setV x b) := ChangesOnly.setV s x b
  refine ⟨⟨_, exec_ldReg x y s, ?_, hframe _⟩, ⟨_, exec_orReg x y s, fun b => ?_, hframe _⟩,
    ⟨_, exec_andReg x y s, fun b => ?_, hframe _⟩, ⟨_, exec_xorReg x y s, fun b => ?_, hframe _⟩⟩
  · simp
  · simp
  · simp
  · simp

/-! ## Flag and result (R141) -/

/-- The result is what `Vx` ends as, `x = F` included. -/
theorem getV_setFlagAndV_result (s : State) (x : Nibble) (f : Bool) (b : Byte) : (s.setFlagAndV x f b).getV x = b := by
  simp

/-- With `x` other than F, VF ends as the flag. -/
theorem getV_setFlagAndV_flag {s : State} {x : Nibble} {f : Bool} {b : Byte} (hx : x ≠ 0xF#4) :
    (s.setFlagAndV x f b).getV 0xF#4 = flagByte f := by
  simp [hx]

theorem flagByte_decide (p : Prop) [Decidable p] : flagByte (decide p) = if p then 1 else 0 := by
  simp [flagByte]

theorem flagByte_toNat (f : Bool) : (flagByte f).toNat = f.toNat := by
  cases f <;> rfl

/-- Bit 0 of a byte is its remainder by 2 (R150). -/
theorem lowBit_toNat (a : Byte) : (lowBit a).toNat = a.toNat % 2 := by
  rw [lowBit, BitVec.getLsbD, Nat.toNat_testBit, pow_zero, Nat.div_one]

/-- Bit 7 of a byte is its quotient by 128 (R152). -/
theorem highBit_toNat (a : Byte) : (highBit a).toNat = a.toNat / 128 := by
  have := a.isLt
  rw [highBit, BitVec.getLsbD, Nat.toNat_testBit]; omega

/-- Settles O10: the flag is the carry and the result the sum modulo 256. -/
theorem addWithCarry : Obligations.AddWithCarry := by
  unfold Obligations.AddWithCarry
  intro x y s
  refine ⟨_, exec_addReg x y s, ?_, fun hx => ?_, ChangesOnly.setFlagAndV s x _ _⟩
  · rw [getV_setFlagAndV_result, BitVec.toNat_add]
  · rw [getV_setFlagAndV_flag hx, carryOut, flagByte_decide]

/-- Settles O11: the flag is the NOT borrow and the result the difference modulo 256, for either minuend. -/
theorem subtractWithNotBorrow : Obligations.SubtractWithNotBorrow := by
  unfold Obligations.SubtractWithNotBorrow
  intro x y s
  have hsub (a b : Byte) : (a - b).toNat = (a.toNat + 256 - b.toNat) % 256 := by bv_omega
  refine ⟨⟨_, exec_subReg x y s, ?_, fun hx => ?_, ChangesOnly.setFlagAndV s x _ _⟩,
    ⟨_, exec_subnReg x y s, ?_, fun hx => ?_, ChangesOnly.setFlagAndV s x _ _⟩⟩
  · rw [getV_setFlagAndV_result, hsub]
  · rw [getV_setFlagAndV_flag hx, noBorrow, flagByte_decide]
  · rw [getV_setFlagAndV_result, hsub]
  · rw [getV_setFlagAndV_flag hx, noBorrow, flagByte_decide]

/-- Settles O12: a shift by one place halves or doubles, and the flag is the bit shifted out. -/
theorem shiftsReportTheBitShiftedOut : Obligations.ShiftsReportTheBitShiftedOut := by
  unfold Obligations.ShiftsReportTheBitShiftedOut
  intro x y s
  refine ⟨⟨_, exec_shr x y s, ?_, fun hx => ?_, ChangesOnly.setFlagAndV s x _ _⟩,
    ⟨_, exec_shl x y s, ?_, fun hx => ?_, ChangesOnly.setFlagAndV s x _ _⟩⟩
  · rw [getV_setFlagAndV_result, BitVec.toNat_ushiftRight, Nat.shiftRight_eq_div_pow, pow_one]
  · rw [getV_setFlagAndV_flag hx, flagByte_toNat, lowBit_toNat]
  · rw [getV_setFlagAndV_result, BitVec.toNat_shiftLeft, Nat.shiftLeft_eq, pow_one, Nat.mul_comm]
  · rw [getV_setFlagAndV_flag hx, flagByte_toNat, highBit_toNat]

/-- Two writes to two registers may be made in either order. -/
theorem State.setV_comm (s : State) {x y : Nibble} (h : x ≠ y) (a b : Byte) :
    (s.setV x a).setV y b = (s.setV y b).setV x a := by
  have hn : x.toNat ≠ y.toNat := fun e => h (BitVec.eq_of_toNat_eq e)
  simp only [State.setV, Vector.set_comm _ _ hn]

/-- Settles O13: writes to two registers commute, and of two writes to VF the last one stays, which is the result here. -/
theorem flagOrderShowsOnlyInVF : Obligations.FlagOrderShowsOnlyInVF := by
  unfold Obligations.FlagOrderShowsOnlyInVF
  refine ⟨fun s x f r hx => s.setV_comm hx.symm _ _, fun s f r => ⟨?_, ?_⟩, fun y s => ⟨_, exec_addReg 0xF#4 y s, ?_⟩⟩
  · exact getV_setFlagAndV_result s 0xF#4 f r
  · simp [writeFlagAndResult, flagByte]
  · exact getV_setFlagAndV_result s 0xF#4 _ _

/-- Settles O14: the draw is masked bit by bit, and the counter of draws goes on. -/
theorem randomByteIsMasked : Obligations.RandomByteIsMasked := by
  unfold Obligations.RandomByteIsMasked
  intro x kk s
  refine ⟨_, exec_rnd x kk s, ?_, fun b hb => ?_, rfl, (changesOnly_of_taking rfl).setV_of_parts x _⟩
  · simp
  · simp [hb]

end Sys2Proof.Machine

/-! # Index register and memory (43_index_memory.md) -/

namespace Sys2Proof.Machine

/-- Settles O15: each of the three writes `I`, with a value that 16 bits hold. -/
theorem indexInstructionsSetI : Obligations.IndexInstructionsSetI := by
  unfold Obligations.IndexInstructionsSetI
  intro x nnn s
  have hx := (s.getV x).isLt
  refine ⟨⟨_, exec_ldI nnn s, setWidth_addr_toNat nnn, changesOnly_of_taking rfl⟩,
    ⟨_, exec_addI x s, ?_, changesOnly_of_taking rfl⟩, ⟨_, exec_ldF x s, ?_, changesOnly_of_taking rfl⟩⟩
  · rw [BitVec.toNat_ofNat, Nat.mod_eq_of_lt (by omega)]
  · rw [BitVec.toNat_ofNat, Nat.mod_eq_of_lt (by omega)]

/-! ## The two stores -/

/-- A byte of a run of writes, by its place in the run. -/
theorem readByte_writeBytes_add {bs : List Byte} {k : Nat} {b : Byte} (m : Memory) (a : Nat) (h : bs[k]? = some b) :
    readByte (writeBytes m a bs) (a + k) = b := by
  rw [readByte_writeBytes, if_pos (Nat.le_add_right a k), Nat.add_sub_cancel_left, h, Option.getD_some]

theorem readByte_bcdDigits (m : Memory) (a : Nat) (v : Byte) :
    (readByte (writeBytes m a (bcdDigits v)) a).toNat = v.toNat / 100 ∧
    (readByte (writeBytes m a (bcdDigits v)) (a + 1)).toNat = v.toNat / 10 % 10 ∧
    (readByte (writeBytes m a (bcdDigits v)) (a + 2)).toNat = v.toNat % 10 := by
  have h0 : readByte (writeBytes m a (bcdDigits v)) a = v / 100 := readByte_writeBytes_add (k := 0) m a rfl
  have h1 : readByte (writeBytes m a (bcdDigits v)) (a + 1) = v / 10 % 10 := readByte_writeBytes_add m a rfl
  have h2 : readByte (writeBytes m a (bcdDigits v)) (a + 2) = v % 10 := readByte_writeBytes_add m a rfl
  exact ⟨by simp [h0], by simp [h1], by simp [h2]⟩

/-- Settles O16: the digits are written one after another, and what is outside the three addresses reads as before. -/
theorem bcdStoresTheDigits : Obligations.BcdStoresTheDigits := by
  unfold Obligations.BcdStoresTheDigits
  intro x s hI
  obtain ⟨h0, h1, h2⟩ := readByte_bcdDigits s.mem s.regI.toNat (s.getV x)
  refine ⟨_, exec_ldB_of_inBounds hI, h0, h1, h2, fun a ha => ?_, changesOnly_of_taking rfl⟩
  exact readByte_writeBytes_of_outside _ _ _ _ (ha.imp_right Nat.succ_le_of_lt)

/-- The byte that Fx55 leaves at the place of `Vr`. -/
theorem readByte_writeRegs (s : State) {x r : Nibble} (h : r.toNat ≤ x.toNat) :
    readByte (writeBytes s.mem s.regI.toNat (s.regs.toList.take (x.toNat + 1))) (s.regI.toNat + r.toNat) = s.getV r :=
  readByte_writeBytes_add s.mem s.regI.toNat (getElem?_take_regs s h)

/-- Settles O17: each register up to `x` has its place in the run of writes, which ends with it. -/
theorem registerDumpIsInclusive : Obligations.RegisterDumpIsInclusive := by
  unfold Obligations.RegisterDumpIsInclusive
  intro x s hI
  refine ⟨_, exec_ldMemVx_of_inBounds hI, fun r hr => readByte_writeRegs s hr, fun a ha => ?_, changesOnly_of_taking rfl⟩
  have hlen := List.length_take_le (x.toNat + 1) s.regs.toList
  exact readByte_writeBytes_of_outside _ _ _ _ (by omega)

/-- Settles O18: the registers up to `x` take the bytes of the range, the others stay. -/
theorem registerLoadIsInclusive : Obligations.RegisterLoadIsInclusive := by
  unfold Obligations.RegisterLoadIsInclusive
  intro x s hI
  refine ⟨_, exec_ldVxMem_of_inBounds hI, fun r hr => ?_, fun r hr => ?_, fun p => ?_⟩
  · rw [getV_setRegsFrom, if_pos (Nat.lt_succ_of_le hr)]
  · rw [getV_setRegsFrom, if_neg (by omega)]
  · cases p <;> simp [Part.Same, State.key]

/-- Settles O19: the load reads at each register's place the byte that the dump left there. -/
theorem loadGivesBackTheDump : Obligations.LoadGivesBackTheDump := by
  unfold Obligations.LoadGivesBackTheDump
  intro x s hI
  refine ⟨_, exec_ldMemVx_of_inBounds hI, fun u hmem hindex => ?_⟩
  refine ⟨_, exec_ldVxMem_of_inBounds (hindex ▸ hI), fun r hr => ?_⟩
  rw [getV_setRegsFrom, if_pos (Nat.lt_succ_of_le hr), hmem, hindex]
  exact readByte_writeRegs s hr

/-- Settles O21: a fetch reads the two bytes that the dump left, the one at the lower address high. -/
theorem storedCodeIsFetched : Obligations.StoredCodeIsFetched := by
  unfold Obligations.StoredCodeIsFetched
  intro x r q s hI hq hqx
  refine ⟨_, exec_ldMemVx_of_inBounds hI, fun u hmem hpc => ?_⟩
  have hlow := readByte_writeRegs s (x := x) (r := r) (by omega)
  have hhigh := readByte_writeRegs s hqx
  rw [hq, ← Nat.add_assoc] at hhigh
  rw [State.fetchWord, wordAt, wordOfBytes_toNat, hmem, hpc, hlow, hhigh]

/-- Settles O42: memory is a part of the two stores alone and not of the frame's end, and what they store at `I` reads back. -/
theorem onlyTheTwoStoresWriteMemory : Obligations.OnlyTheTwoStoresWriteMemory := by
  unfold Obligations.OnlyTheTwoStoresWriteMemory
  refine ⟨fun i s t hldB hldMem h => exec_keeps_mem ?_ h, fun s t hd h => ?_, fun s hI => ⟨?_, fun hI2 x => ?_⟩⟩
  · cases i
    case ldB x => exact absurd rfl (hldB x)
    case ldMemVx x => exact absurd rfl (hldMem x)
    all_goals simp [Instr.writes]
  · obtain ⟨-, ⟨-, rfl⟩ | ⟨hd', -⟩⟩ := step_cases h
    · exact s.endFrame_mem
    · simp [hd] at hd'
  · exact ⟨_, exec_ldMemVx_of_inBounds (x := 0) hI, readByte_writeRegs s (x := 0) (r := 0) (Nat.le_refl _)⟩
  · exact ⟨_, exec_ldB_of_inBounds hI2, (readByte_bcdDigits s.mem s.regI.toNat (s.getV x)).1⟩

end Sys2Proof.Machine

/-! # Display (44_display.md): drawing -/

namespace Sys2Proof.Machine

/-- The pixels that a draw by Dxyn hits (R191). -/
def State.Hits (s : State) (x y n : Nibble) : Fin 32 → Fin 64 → Prop :=
  SpriteHits (readBytes s.mem s.regI.toNat n.toNat) (s.getV x).toNat (s.getV y).toNat

section
variable {s : State} {x y n : Nibble} {row : Fin 32} {col : Fin 64}

/-- A sprite has fewer rows than the display. -/
theorem length_sprite_le (m : Memory) (a : Nat) (n : Nibble) : (readBytes m a n.toNat).length ≤ 32 := by
  have := n.isLt
  rw [length_readBytes]; omega

theorem drawn_pixel_of_hit (h : s.Hits x y n row col) : pixel (s.drawn x y n).disp row col = !pixel s.disp row col :=
  drawSprite_pixel_of_hit _ _ _ _ (length_sprite_le _ _ n) h

theorem drawn_pixel_of_miss (h : ¬s.Hits x y n row col) : pixel (s.drawn x y n).disp row col = pixel s.disp row col :=
  drawSprite_pixel_of_miss _ _ _ _ (length_sprite_le _ _ n) h

theorem drawn_collision :
    (s.drawn x y n).collision = true ↔ ∃ row col, s.Hits x y n row col ∧ pixel s.disp row col = true :=
  drawSprite_collision _ _ _ _ (length_sprite_le _ _ n)

end

theorem flagByte_eq_one_iff (f : Bool) : flagByte f = 1 ↔ f = true := by cases f <;> decide

/-- Settles O23: the draw is the compositor's, which toggles the pixels hit and reports whether one of them was on. -/
theorem drawTogglesAndReportsCollision : Obligations.DrawTogglesAndReportsCollision := by
  unfold Obligations.DrawTogglesAndReportsCollision
  intro x y n s hI hits
  refine ⟨_, exec_drw_of_inBounds hI, fun row col h => drawn_pixel_of_hit h, fun row col h => drawn_pixel_of_miss h,
    fun h => ?_, fun h => ?_, ?_⟩
  · have hc : (s.drawn x y n).collision = true := drawn_collision.mpr h
    simp [hc, flagByte]
  · have hc : (s.drawn x y n).collision = false := by
      rw [← Bool.not_eq_true, drawn_collision]
      rintro ⟨row, col, hh, hon⟩
      simp [h row col hh] at hon
    simp [hc, flagByte]
  · exact (ChangesOnly.withDisplay s _).setV_of_parts _ _

/-- Settles O24: the second draw hits the same pixels, toggles each of them back, and finds those on that were off at first. -/
theorem drawTwiceRestoresTheDisplay : Obligations.DrawTwiceRestoresTheDisplay := by
  unfold Obligations.DrawTwiceRestoresTheDisplay
  intro x y n s hI hits
  refine ⟨_, exec_drw_of_inBounds hI, fun u hdisp hmem hindex hx hy => ?_⟩
  have hdisp : u.disp = (s.drawn x y n).disp := hdisp
  have hhits : u.Hits x y n = hits := by simp only [State.Hits, hits, hmem, hindex, hx, hy]
  have hon {row col} (h : hits row col) : pixel u.disp row col = !pixel s.disp row col := hdisp ▸ drawn_pixel_of_hit h
  refine ⟨_, exec_drw_of_inBounds (hindex ▸ hI), Display.ext fun row col => ?_, ?_⟩
  · show pixel (u.drawn x y n).disp row col = pixel s.disp row col
    by_cases h : hits row col
    · rw [drawn_pixel_of_hit (hhits ▸ h), hon h, Bool.not_not]
    · rw [drawn_pixel_of_miss (hhits ▸ h), hdisp, drawn_pixel_of_miss h]
  · rw [State.getV_setV, if_pos rfl, flagByte_eq_one_iff, drawn_collision, hhits]
    constructor
    · rintro ⟨row, col, h, hp⟩
      exact ⟨row, col, h, by simpa [hon h] using hp⟩
    · rintro ⟨row, col, h, hp⟩
      exact ⟨row, col, h, by simp [hon h, hp]⟩

end Sys2Proof.Machine

/-! # Timers and keys (45_timers_input.md) -/

namespace Sys2Proof.Machine

/-- Settles O26: Fx07 is a register write, Fx15 and Fx18 each write one timer. -/
theorem timerInstructionsMoveTheTimers : Obligations.TimerInstructionsMoveTheTimers := by
  unfold Obligations.TimerInstructionsMoveTheTimers
  intro x s
  exact ⟨⟨_, exec_ldVxDt x s, by simp, ChangesOnly.setV s x _⟩,
    ⟨_, exec_ldDtVx x s, rfl, changesOnly_of_taking rfl⟩, ⟨_, exec_ldStVx x s, rfl, changesOnly_of_taking rfl⟩⟩

/-- Settles O27: each key skip is a skip taken when the latch of key `Vx` is as wanted. -/
theorem keySkipsReadTheLatch : Obligations.KeySkipsReadTheLatch := by
  unfold Obligations.KeySkipsReadTheLatch
  intro x s k hk
  have hv : (s.getV x).toNat < 16 := hk ▸ k.isLt
  obtain rfl : k = ⟨(s.getV x).toNat, hv⟩ := Fin.ext hk.symm
  exact ⟨⟨_, exec_skp_of_lt hv, skipIf_spec beq_iff_eq.mpr fun h => by simp [h]⟩,
    ⟨_, exec_sknp_of_lt hv, skipIf_spec beq_iff_eq.mpr fun h => by simp [h]⟩⟩

/-- Settles O29: the lowest pressed key is found if there is one, and the rewind is made if there is none. -/
theorem waitForKeyTakesTheLowestOrRewinds : Obligations.WaitForKeyTakesTheLowestOrRewinds := by
  unfold Obligations.WaitForKeyTakesTheLowestOrRewinds
  intro x s
  refine ⟨fun k hk hlow => ?_, fun hnone => ?_⟩
  · have hlowest : s.lowestKey = some k.val :=
      State.lowestKey_eq_some.mpr ⟨k.isLt, hk, fun j hj => hlow ⟨j, by omega⟩ hj⟩
    have hbyte : (BitVec.ofNat 8 k.val).toNat = k.val := by
      rw [BitVec.toNat_ofNat, Nat.mod_eq_of_lt (by omega)]
    refine ⟨_, exec_ldVxK_of_key hlowest, ?_, rfl, (changesOnly_of_taking rfl).setV_of_parts x _⟩
    rw [State.getV_setV, if_pos rfl, hbyte]
  · exact ⟨_, exec_ldVxK_of_noKey (State.lowestKey_eq_none.mpr hnone), rfl, rfl, changesOnly_of_taking rfl⟩

/-! ## A frame that waits (R215) -/

/-- An Fx0A that finds no key pressed is run, and leaves `pc` at itself. -/
theorem executeOne_of_waiting {x : Nibble} {s : State} (hf : s.fault = none) (hpc : s.pc.toNat ≤ 4094)
    (hw : decodeWord s.fetchWord = .ldVxK x) (hk : s.lowestKey = none) :
    executeOne s = .next { s with waiting := true } := by
  have hback : s.advance.pc - 2 = s.pc := BitVec.add_sub_cancel s.pc 2
  have hadv : s.advance.lowestKey = none := hk
  rw [executeOne_of_fetch hf hpc, hw, exec_ldVxK_of_noKey hadv]
  show Host.Outcome.next { s with waiting := true, pc := s.advance.pc - 2 } = _
  rw [hback]

/-- However many instructions are left in the batch, each of them is that Fx0A. -/
theorem runBatch_of_waiting {x : Nibble} {s : State} (hf : s.fault = none) (hpc : s.pc.toNat ≤ 4094)
    (hw : decodeWord s.fetchWord = .ldVxK x) (hk : s.lowestKey = none) (k : Nat) :
    runBatch (k + 1) s = .next { s with waiting := true } := by
  have hone := executeOne_of_waiting hf hpc hw hk
  induction k generalizing s with
  | zero => exact runBatch_succ_of_next hpc hone hf 0
  | succ k ih =>
    rw [runBatch_succ_of_next hpc hone hf]
    exact ih hf hpc hw hk (executeOne_of_waiting hf hpc hw hk)

/-- What a frame makes of its batch's answer: the tick, which a fault suppresses (R109, R110). -/
def State.afterBatch (t : State) : State := if t.fault.isSome then t else t.timerTick

theorem State.afterBatch_of_noFault {t : State} (h : t.fault = none) : t.afterBatch = t.timerTick := by
  simp [State.afterBatch, h]

theorem State.afterBatch_of_fault {t : State} {r : FaultRecord} (h : t.fault = some r) : t.afterBatch = t := by
  simp [State.afterBatch, h]

theorem runFrame_of_runBatch {s t : State} (hf : s.fault = none) (h : runBatch s.batchSize s = .next t) :
    runFrame s = .next t.afterBatch := by
  cases ht : t.fault with
  | none => simp [runFrame, hf, h, ht, State.afterBatch_of_noFault ht]
  | some r => simp [runFrame, hf, h, ht, State.afterBatch_of_fault ht]

/-- `run_frame` on a faulted machine does nothing (R110). -/
theorem runFrame_of_fault {s : State} (hf : s.fault ≠ none) : runFrame s = .next s := by
  obtain ⟨r, hr⟩ := Option.ne_none_iff_exists'.mp hf
  simp [runFrame, hr]

/-- Settles O30: the batch has an instruction, each one run is the Fx0A at the same place, and the tick follows. -/
theorem waitingFrameStaysAtTheInstruction : Obligations.WaitingFrameStaysAtTheInstruction := by
  unfold Obligations.WaitingFrameStaysAtTheInstruction
  intro x s hf hpc hclock hw hk
  have hsize : s.batchSize = s.batchSize - 1 + 1 := by
    have : 1 ≤ s.clockSpeed / 60 := (Nat.one_le_div_iff (by decide)).mpr hclock
    simp only [State.batchSize, Config.frameRate]; omega
  have hbatch : runBatch s.batchSize s = .next { s with waiting := true } := by
    rw [hsize, runBatch_of_waiting hf hpc hw (State.lowestKey_eq_none.mpr hk)]
  refine ⟨{ s with waiting := true }.timerTick, ?_, rfl, rfl, hf, tickByte_toNat s.dt, tickByte_toNat s.st,
    changesOnly_of_taking rfl⟩
  rw [runFrame_of_runBatch hf hbatch, State.afterBatch_of_noFault (t := { s with waiting := true }) hf]

end Sys2Proof.Machine

/-! # The frame (40_cycle.md R100-R110), step by step and as a whole -/

namespace Sys2Proof.Machine

/-- Settles O32: the two bytes at `pc` are the word fetched, and the count goes on or ends with the fault. -/
theorem stepRunsTheDecodedInstruction : Obligations.StepRunsTheDecodedInstruction := by
  unfold Obligations.StepRunsTheDecodedInstruction
  intro s i hs hi
  have hdec : decodeWord s.fetchWord = i := congrArg Prod.fst (Except.ok.inj hi)
  refine ⟨hdec ▸ executeOne_of_fetch hs.1 hs.2.1, fun t ht hf => ?_, fun t ht hf => ?_⟩
  · rw [step_of_running hs (hdec ▸ ht), State.countSlot_of_noFault hf]
  · obtain ⟨r, hr⟩ := Option.ne_none_iff_exists'.mp hf
    rw [step_of_running hs (hdec ▸ ht), State.countSlot_of_fault hr]

/-- Settles O33: the step is the frame's end. -/
theorem frameEndTicksTheTimers : Obligations.FrameEndTicksTheTimers := by
  unfold Obligations.FrameEndTicksTheTimers
  exact fun s hf hd => ⟨_, step_of_batchDone hf hd, tickByte_toNat s.dt, tickByte_toNat s.st, rfl, changesOnly_of_taking rfl⟩

/-- R234: a host call other than a new machine leaves a stopped machine as it is. -/
theorem hostCall_of_fault {c : HostCall} {s t : State} {r : FaultRecord} {a : HostReply} (hr : s.fault = some r)
    (h : hostCall c s = .next (t, a)) (hnew : ∀ n, c ≠ .newMachine n) : t = s := by
  have hf : s.fault ≠ none := by simp [hr]
  obtain ⟨-, rfl | ⟨n, hc, -, -⟩ | ⟨bytes, -, hn, -⟩ | ⟨k, b, -, hn, -⟩ | ⟨-, hrun⟩ | ⟨-, hone⟩⟩ := hostCall_cases h
  · rfl
  · exact absurd hc (hnew n)
  · exact absurd hn hf
  · exact absurd hn hf
  · exact Host.Outcome.next.inj (hrun.symm.trans (runFrame_of_fault hf))
  · exact Host.Outcome.next.inj (hone.symm.trans (executeOne_of_fault hr))

/-- Settles O34: each operation tests the record first. -/
theorem stoppedMachineNeverChanges : Obligations.StoppedMachineNeverChanges := by
  unfold Obligations.StoppedMachineNeverChanges
  exact fun s r hr => ⟨step_of_fault hr, executeOne_of_fault hr, runFrame_of_fault (by simp [hr]),
    fun c t a h hnew => hostCall_of_fault hr h hnew⟩

/-! ## Runs of steps -/

theorem run_succ_of_next {s t : State} (h : step s = .next t) (k : Nat) :
    Host.Core.run Sys2Proof.core (k + 1) s = Host.Core.run Sys2Proof.core k t := by
  simp only [Host.Core.run, show Sys2Proof.core.step s = .next t from h]

theorem Halted.endFrame {s : State} (h : Halted s) : Halted s.endFrame := h

/-- Settles O35: by induction on the steps, each of which ends a frame and leaves the machine halted. -/
theorem haltedMachineOnlyTicks : Obligations.HaltedMachineOnlyTicks := by
  unfold Obligations.HaltedMachineOnlyTicks
  intro k
  induction k with
  | zero => exact fun s _ => ⟨s, rfl, rfl, rfl, ChangesOnly.refl _ _ s⟩
  | succ k ih =>
    intro s hs
    obtain ⟨t, hrun, hdt, hst, hframe⟩ := ih s.endFrame hs.endFrame
    have hstep : step s = .next s.endFrame := step_of_batchDone hs.1 (.inr hs.2)
    refine ⟨t, (run_succ_of_next hstep k).trans hrun, ?_, ?_, (changesOnly_of_taking rfl).trans hframe⟩
    · rw [hdt, State.endFrame_dt, tickByte_toNat]; omega
    · rw [hst, State.endFrame_st, tickByte_toNat]; omega

/-! ## The steps of a frame make up `run_frame` -/

theorem exec_with_slot {i : Instr} {s t : State} (h : exec i s = .next t) (k : Nat) :
    exec i { s with slot := k } = .next { t with slot := k } :=
  (exec_blindTo_slot i).answers_taking h { s with slot := k }

/-- The batch's counter means nothing to an instruction run by the cycle. -/
theorem executeOne_with_slot {s t : State} (h : executeOne s = .next t) (k : Nat) :
    executeOne { s with slot := k } = .next { t with slot := k } := by
  rcases executeOne_cases h with ⟨hf, rfl⟩ | ⟨hf, hpc, rfl⟩ | ⟨hf, hpc, he⟩
  · obtain ⟨r, hr⟩ := Option.ne_none_iff_exists'.mp hf
    exact executeOne_of_fault (s := { t with slot := k }) hr
  · exact executeOne_of_past (s := { s with slot := k }) hf hpc
  · exact (executeOne_of_fetch (s := { s with slot := k }) hf hpc).trans (exec_with_slot he k)

/-- A batch goes no further than an instruction that faults (R110). -/
theorem runBatch_succ_of_fault {s t : State} {r : FaultRecord} (hpc : s.pc.toNat ≤ 4094) (hst : executeOne s = .next t)
    (hr : t.fault = some r) (k : Nat) : runBatch (k + 1) s = .next t := by
  simp [runBatch, s.halted_eq_false_iff.mpr hpc, hst, hr]

/-- A batch ends where the machine halts (R107). -/
theorem runBatch_of_halted {s : State} (hpc : 4094 < s.pc.toNat) (k : Nat) : runBatch k s = .next s := by
  have hh : s.halted = true := by simpa [State.halted] using hpc
  cases k with
  | zero => rfl
  | succ k => simp [runBatch, hh]

/-- The frame's end, after any count of the batch, is the tick of the frame's own state. -/
theorem step_ends_batch {s : State} {j : Nat} (hf : s.fault = none) (hslot : s.slot = 0)
    (hd : s.batchSize ≤ j ∨ 4094 < s.pc.toNat) : step { s with slot := j } = .next s.afterBatch := by
  rw [step_of_batchDone (s := { s with slot := j }) hf hd, State.afterBatch_of_noFault hf]
  show Host.Outcome.next { s.timerTick with slot := 0 } = _
  rw [← hslot, ← s.timerTick_slot]

/-- With `k` instructions of the batch left, at most `k + 1` steps reach what the frame makes of the batch's answer
(R106-R110). -/
theorem steps_make_up_batch {k j : Nat} {s : State} (hf : s.fault = none) (hslot : s.slot = 0) (hj : j + k = s.batchSize) :
    ∃ (m : Nat) (u : State), m ≤ k + 1 ∧ 0 < m ∧ runBatch k s = .next u ∧
      Host.Core.run Sys2Proof.core m { s with slot := j } = .next u.afterBatch := by
  induction k generalizing s j with
  | zero =>
    have hstep : step { s with slot := j } = .next s.afterBatch := step_ends_batch hf hslot (.inl (by omega))
    exact ⟨1, s, by omega, by omega, rfl, run_succ_of_next hstep 0⟩
  | succ k ih =>
    rcases Nat.lt_or_ge 4094 s.pc.toNat with hpc | hpc
    · have hstep : step { s with slot := j } = .next s.afterBatch := step_ends_batch hf hslot (.inr hpc)
      exact ⟨1, s, by omega, by omega, runBatch_of_halted hpc _, run_succ_of_next hstep 0⟩
    obtain ⟨t, ht⟩ := executeOne_answers s
    have htslot : t.slot = 0 := (executeOne_keeps_slot ht).trans hslot
    have hsize : s.batchSize = t.batchSize := by simp only [State.batchSize, executeOne_keeps_clockSpeed ht]
    have hmore : State.batchDone { s with slot := j } = false :=
      (State.batchDone_eq_false_iff _).mpr ⟨by show j < s.batchSize; omega, hpc⟩
    have hstep := step_of_executeOne (s := { s with slot := j }) hf hmore (executeOne_with_slot ht j)
    cases hr : t.fault with
    | some r =>
      have hcount : State.countSlot { t with slot := j } = t := by
        rw [State.countSlot_of_fault (s := { t with slot := j }) hr, ← htslot]
      rw [hcount] at hstep
      refine ⟨1, t, by omega, by omega, runBatch_succ_of_fault hpc ht hr k, ?_⟩
      rw [State.afterBatch_of_fault hr, run_succ_of_next hstep]; rfl
    | none =>
      have hcount : State.countSlot { t with slot := j } = { t with slot := j + 1 } := State.countSlot_of_noFault hr
      rw [hcount] at hstep
      obtain ⟨m, u, hm, -, hbatch, hrun⟩ := ih (j := j + 1) hr htslot (by omega)
      exact ⟨m + 1, u, by omega, by omega, (runBatch_succ_of_next hpc ht hr k).trans hbatch,
        (run_succ_of_next hstep m).trans hrun⟩

/-- The host's `run_frame` is that operation, with the record as its reply (R246). -/
theorem hostCall_runFrame {s t : State} (hslot : s.slot = 0) (h : runFrame s = .next t) :
    hostCall .runFrame s = .next (t, .faultRaised t.fault) := by
  simp [hostCall, hslot, h, withFault]

theorem hostCall_executeOne {s t : State} (hslot : s.slot = 0) (h : executeOne s = .next t) :
    hostCall .executeOne s = .next (t, .faultRaised t.fault) := by
  simp [hostCall, hslot, h, withFault]

/-- From a frame's start some steps, no more than the batch has and one for its end, reach the answer of `run_frame`. -/
theorem steps_make_up_runFrame {s : State} (hslot : s.slot = 0) : ∃ (k : Nat) (t : State), k ≤ s.batchSize + 1 ∧
    (s.fault = none → 0 < k) ∧ Host.Core.run Sys2Proof.core k s = .next t ∧ runFrame s = .next t := by
  by_cases hf : s.fault = none
  · have hs : { s with slot := 0 } = s := by rw [← hslot]
    obtain ⟨m, u, hm, hpos, hbatch, hrun⟩ := steps_make_up_batch hf hslot (Nat.zero_add _)
    exact ⟨m, _, hm, fun _ => hpos, hs ▸ hrun, runFrame_of_runBatch hf hbatch⟩
  · exact ⟨0, s, Nat.zero_le _, fun h => absurd h hf, rfl, runFrame_of_fault hf⟩

/-- Settles O36: the steps make up the frame, and the host's two calls are the operations. -/
theorem stepsMakeUpRunFrame : Obligations.StepsMakeUpRunFrame := by
  unfold Obligations.StepsMakeUpRunFrame
  intro s hslot
  obtain ⟨k, t, hk, hpos, hrun, hframe⟩ := steps_make_up_runFrame hslot
  obtain ⟨u, hu⟩ := executeOne_answers s
  exact ⟨k, t, hk, hpos, hrun, hframe, hostCall_runFrame hslot hframe, u, hu, hostCall_executeOne hslot hu⟩

end Sys2Proof.Machine

/-! # What instructions leave alone: registers, the stack, the clock speed, ST and `waiting` (10_state.md) -/

namespace Sys2Proof.Machine

/-- A register that is not among an instruction's destinations keeps its value. -/
theorem exec_keeps_reg {i : Instr} {s t : State} {r : Nibble} (hr : ¬i.WritesReg r) (h : exec i s = .next t) :
    t.getV r = s.getV r := by
  rcases exec_cases h with ⟨k, info, -, rfl⟩ | ⟨-, -, hregs⟩
  · rfl
  · exact hregs r hr

/-- Settles O43: an instruction that writes VF has VF among its destinations, as the flag or by name. -/
theorem onlyFlagInstructionsWriteVF : Obligations.OnlyFlagInstructionsWriteVF := by
  unfold Obligations.OnlyFlagInstructionsWriteVF
  intro i s t h hne
  have hw : i.WritesReg 0xF#4 := by
    by_contra hw
    exact hne (exec_keeps_reg hw h)
  cases i
  case addReg x y | subReg x y | shr x y | subnReg x y | shl x y => exact .inl ⟨x, y, by simp⟩
  case drw x y n => exact .inr (.inl ⟨x, y, n, rfl⟩)
  case ldByte x kk | addByte x kk | rnd x kk => obtain rfl : 0xF#4 = x := hw; exact .inr (.inr ⟨kk, 0, by simp⟩)
  case ldReg x y | orReg x y | andReg x y | xorReg x y => obtain rfl : 0xF#4 = x := hw; exact .inr (.inr ⟨0, y, by simp⟩)
  case ldVxDt x | ldVxK x => obtain rfl : 0xF#4 = x := hw; exact .inr (.inr ⟨0, 0, by simp⟩)
  case ldVxMem x =>
    have hx : (0xF#4).toNat ≤ x.toNat := hw
    obtain rfl : x = 0xF#4 := by bv_omega
    exact .inr (.inr ⟨0, 0, by simp⟩)
  all_goals exact hw.elim

/-- Settles O44: the stack is idle in every instruction but CALL and RET. -/
theorem onlyCallAndReturnTouchTheStack : Obligations.OnlyCallAndReturnTouchTheStack := by
  unfold Obligations.OnlyCallAndReturnTouchTheStack
  intro i s t hcall hret h
  have hidle : Part.stack ∈ i.idle := by
    cases i
    case call nnn => exact absurd rfl (hcall nnn)
    case ret => exact absurd rfl hret
    all_goals simp [Instr.idle]
  have hblind : BlindTo [.stack] (exec i) := (exec_blindTo_idle i).mono (by simpa using hidle)
  exact ⟨(congrArg State.stack (hblind.eq_taking h)).trans rfl, fun l => hblind.answers_taking h { s with stack := l }⟩

theorem step_keeps_clockSpeed {s t : State} (h : step s = .next t) : t.clockSpeed = s.clockSpeed := by
  obtain ⟨-, ⟨-, rfl⟩ | ⟨-, u, hu, rfl⟩⟩ := step_cases h
  · rw [State.endFrame_clockSpeed]
  · rw [State.countSlot_clockSpeed, executeOne_keeps_clockSpeed hu]

theorem runFrame_keeps_clockSpeed {s t : State} (h : runFrame s = .next t) : t.clockSpeed = s.clockSpeed :=
  runFrame_preserves (P := fun u => u.clockSpeed = s.clockSpeed) (fun _ _ hu he => (executeOne_keeps_clockSpeed he).trans hu)
    (fun u hu => u.timerTick_clockSpeed.trans hu) rfl h

/-- R34: no host call but a new machine changes the clock speed. -/
theorem hostCall_keeps_clockSpeed {c : HostCall} {s t : State} {r : HostReply} (h : hostCall c s = .next (t, r))
    (hnew : ∀ n, c ≠ .newMachine n) : t.clockSpeed = s.clockSpeed := by
  obtain ⟨-, rfl | ⟨n, hc, -, -⟩ | ⟨bytes, -, -, hl⟩ | ⟨k, b, -, -, rfl⟩ | ⟨-, hr⟩ | ⟨-, he⟩⟩ := hostCall_cases h
  · rfl
  · exact absurd hc (hnew n)
  · rw [(loadProgram_eq_some hl).2]
  · rfl
  · exact runFrame_keeps_clockSpeed hr
  · exact executeOne_keeps_clockSpeed he

theorem hostCall_newMachine {n : Nat} {s : State} (hs : s.slot = 0) (hn : 0 < n) :
    hostCall (.newMachine n) s = .next ({ State.afterReset n with rngDraws := s.rngDraws }, .nothing) := by
  simp [hostCall, hs, newMachine, Nat.ne_of_gt hn]

/-- Settles O45: the new machine stores its argument, and neither an instruction, a step nor another host call touches it. -/
theorem clockSpeedBelongsToTheScheduler : Obligations.ClockSpeedBelongsToTheScheduler := by
  unfold Obligations.ClockSpeedBelongsToTheScheduler
  exact ⟨fun n s hs hn => ⟨_, hostCall_newMachine hs hn, rfl⟩, rfl,
    fun i s t h => ⟨exec_keeps_clockSpeed h, fun n => (exec_blindTo_clock i).answers_taking h { s with clockSpeed := n }⟩,
    fun s t h => step_keeps_clockSpeed h, fun c s t r h hnew => hostCall_keeps_clockSpeed h hnew⟩

/-! ## ST and `waiting` are not observed (R28, R32) -/

/-- Fx18 alone writes ST and Fx0A alone writes `waiting`, whatever they were; to every other instruction they mean nothing. -/
theorem exec_with_soundAndWaiting {i : Instr} {s t : State} (h : exec i s = .next t) (st : Byte) (w : Bool) :
    ∃ (st' : Byte) (w' : Bool), exec i { s with st := st, waiting := w } = .next { t with st := st', waiting := w' } := by
  by_cases hi : Part.sound ∈ i.idle ∧ Part.waiting ∈ i.idle
  · have hblind : BlindTo [.sound, .waiting] (exec i) := (exec_blindTo_idle i).mono (by simpa using hi)
    exact ⟨st, w, hblind.answers_taking h { s with st := st, waiting := w }⟩
  cases i
  case ldStVx x => cases h; exact ⟨_, w, rfl⟩
  case ldVxK x =>
    cases hk : s.lowestKey with
    | none =>
      cases (exec_ldVxK_of_noKey hk).symm.trans h
      exact ⟨st, true, exec_ldVxK_of_noKey (s := { s with st := st, waiting := w }) hk⟩
    | some k =>
      cases (exec_ldVxK_of_key hk).symm.trans h
      exact ⟨st, false, exec_ldVxK_of_key (s := { s with st := st, waiting := w }) hk⟩
  all_goals simp [Instr.idle] at hi

theorem executeOne_with_soundAndWaiting {s t : State} (h : executeOne s = .next t) (st : Byte) (w : Bool) :
    ∃ (st' : Byte) (w' : Bool),
      executeOne { s with st := st, waiting := w } = .next { t with st := st', waiting := w' } := by
  rcases executeOne_cases h with ⟨hf, rfl⟩ | ⟨hf, hpc, rfl⟩ | ⟨hf, hpc, he⟩
  · obtain ⟨r, hr⟩ := Option.ne_none_iff_exists'.mp hf
    exact ⟨st, w, executeOne_of_fault (s := { t with st := st, waiting := w }) hr⟩
  · exact ⟨st, w, executeOne_of_past (s := { s with st := st, waiting := w }) hf hpc⟩
  · obtain ⟨st', w', he'⟩ := exec_with_soundAndWaiting he st w
    exact ⟨st', w', (executeOne_of_fetch (s := { s with st := st, waiting := w }) hf hpc).trans he'⟩

theorem countSlot_with_soundAndWaiting (s : State) (st : Byte) (w : Bool) :
    State.countSlot { s with st := st, waiting := w } = { s.countSlot with st := st, waiting := w } := by
  cases hf : s.fault <;> simp [State.countSlot, hf]

/-- Settles O46: neither the scheduler's tests nor an instruction's answer depend on ST or `waiting`, but for these two
themselves. -/
theorem soundAndWaitingAreNotObserved : Obligations.SoundAndWaitingAreNotObserved := by
  unfold Obligations.SoundAndWaitingAreNotObserved
  intro s t st w h
  obtain ⟨hf, ⟨hd, rfl⟩ | ⟨hd, u, hu, rfl⟩⟩ := step_cases h
  · exact ⟨tickByte st, w, step_of_batchDone (s := { s with st := st, waiting := w }) hf (s.batchDone_iff.mp hd)⟩
  · obtain ⟨st', w', hu'⟩ := executeOne_with_soundAndWaiting hu st w
    have hstep := step_of_executeOne (s := { s with st := st, waiting := w }) hf hd hu'
    exact ⟨st', w', hstep.trans (congrArg _ (countSlot_with_soundAndWaiting u st' w'))⟩

end Sys2Proof.Machine

/-! # Reset and the host's calls (60_exceptions.md, 70_reset_and_hazards.md) -/

namespace Sys2Proof.Machine

/-- Settles O51: each element at its value of R40, the font byte by byte, and the host's new machine is that state. -/
theorem resetSetsEveryElement : Obligations.ResetSetsEveryElement := by
  unfold Obligations.ResetSetsEveryElement
  refine ⟨fun n => ⟨fun a ha => ?_, ?_, State.getV_afterReset n, rfl, rfl, rfl, rfl, rfl, State.key_afterReset n,
    pixel_blankDisplay, rfl, rfl, rfl⟩, fun n s hs hn => hostCall_newMachine hs hn⟩
  · show (fontTable[a]?).getD 0 = 0
    rw [List.getElem?_eq_none (by exact ha), Option.getD_none]
  · rfl

theorem hostCall_loadProgram_of_fits {bytes : List Byte} {s : State} (hs : s.slot = 0) (hf : s.fault = none)
    (h : 512 + bytes.length ≤ 4096) :
    hostCall (.loadProgram bytes) s = .next ({ s with mem := writeBytes s.mem 512 bytes }, .loaded true) := by
  simp [hostCall, hs, hf, loadProgram, h]

theorem hostCall_loadProgram_of_tooLong {bytes : List Byte} {s : State} (hs : s.slot = 0) (hf : s.fault = none)
    (h : 4096 < 512 + bytes.length) : hostCall (.loadProgram bytes) s = .next (s, .loaded false) := by
  simp [hostCall, hs, hf, loadProgram, Nat.not_le.mpr h]

/-- Settles O52: a program that fits is a run of writes from 512 on; one that does not is not loaded. -/
theorem loadProgramFitsOrFails : Obligations.LoadProgramFitsOrFails := by
  unfold Obligations.LoadProgramFitsOrFails
  intro bytes s hs hf
  refine ⟨fun h => ⟨_, hostCall_loadProgram_of_fits hs hf h, fun k hk => ?_,
    fun a ha => readByte_writeBytes_of_outside _ _ _ _ ha, changesOnly_of_taking rfl⟩,
    hostCall_loadProgram_of_tooLong hs hf⟩
  rw [readByte_writeBytes_add _ _ (List.getElem?_eq_getElem hk), List.getElem?_eq_getElem hk]

/-- The word at an address where two bytes were written, the first one high (R54). -/
theorem wordAt_writeBytes (m : Memory) (a : Nat) (hi lo : Byte) (rest : List Byte) :
    wordAt (writeBytes m a (hi :: lo :: rest)) a = wordOfBytes hi lo := by
  have hhi : readByte (writeBytes m a (hi :: lo :: rest)) a = hi := readByte_writeBytes_add (k := 0) m a rfl
  have hlo : readByte (writeBytes m a (hi :: lo :: rest)) (a + 1) = lo := readByte_writeBytes_add m a rfl
  rw [wordAt, hhi, hlo]

/-- Settles O53: the load starts at 512, where `pc` stands after reset. -/
theorem firstInstructionIsAt512 : Obligations.FirstInstructionIsAt512 := by
  unfold Obligations.FirstInstructionIsAt512
  intro n hi lo rest hn hlen
  have hbatch : 0 < n / 60 := Nat.div_pos hn (by decide)
  have hpc : (State.afterReset n).pc = 512 := rfl
  refine ⟨_, hostCall_loadProgram_of_fits rfl rfl (by simp; omega), ⟨rfl, by simp [hpc], hbatch⟩, hpc, ?_⟩
  exact (congrArg BitVec.toNat (wordAt_writeBytes [] 512 hi lo rest)).trans (wordOfBytes_toNat hi lo)

theorem key_setKey (k : Nibble) (pressed : Bool) (s : State) (j : Fin 16) :
    (setKey k pressed s).key j = if j.val = k.toNat then pressed else s.key j := by
  simp only [State.key, setKey, Vector.get_eq_getElem, Vector.getElem_set, eq_comm]

/-- Settles O54: the write of one latch leaves the others, and only a press clears `waiting`. -/
theorem setKeyWritesOneLatch : Obligations.SetKeyWritesOneLatch := by
  unfold Obligations.SetKeyWritesOneLatch
  intro k pressed s hs hf
  have hcall : hostCall (.setKey k pressed) s = .next (setKey k pressed s, .nothing) := by simp [hostCall, hs, hf]
  exact ⟨_, hcall, key_setKey k pressed s, fun h => if_pos h, fun h => if_neg (by simp [h]), changesOnly_of_taking rfl⟩

/-- Settles O56: the count of the batch is tested before the call is looked at. -/
theorem hostHasNoMoveDuringAFrame : Obligations.HostHasNoMoveDuringAFrame := by
  unfold Obligations.HostHasNoMoveDuringAFrame
  exact fun c s hs => if_pos hs

/-! ## The packed display (R31, R249) -/

/-- In a list of blocks of one length, place `n * i + j` is place `j` of block `i`. -/
theorem getElem?_flatMap_blocks {α β : Type} {f : α → List β} {n : Nat} (hf : ∀ a, (f a).length = n) (l : List α)
    (i : Nat) {j : Nat} (hj : j < n) : (l.flatMap f)[n * i + j]? = l[i]?.bind fun a => (f a)[j]? := by
  induction l generalizing i with
  | nil => simp
  | cons a l ih =>
    cases i with
    | zero => simp [List.getElem?_append_left, hf, hj]
    | succ i =>
      have hplace : n * (i + 1) + j = (f a).length + (n * i + j) := by rw [hf, Nat.mul_succ]; omega
      rw [List.flatMap_cons, hplace, List.getElem?_append_right (Nat.le_add_right _ _), Nat.add_sub_cancel_left, ih]
      rfl

theorem length_flatMap_blocks {α β : Type} {f : α → List β} {n : Nat} (hf : ∀ a, (f a).length = n) (l : List α) :
    (l.flatMap f).length = n * l.length := by
  simp [List.length_flatMap, hf, Nat.mul_comm]

@[simp] theorem length_packPixel (p : Vector Byte 4) (on : Bool) : (packPixel p on).length = 4 := by
  cases on <;> simp [packPixel]

theorem getElem?_packPixel (p : Vector Byte 4) (on : Bool) {b : Nat} (hb : b < 4) :
    (packPixel p on)[b]? = some (if on then p[b] else 0) := by
  cases on with
  | true => simp [packPixel, hb]
  | false => interval_cases b <;> rfl

/-- A packed row has 256 bytes. -/
theorem length_packRow (p : Vector Byte 4) (row : Vector Bool 64) :
    (row.toList.flatMap (packPixel p)).length = 256 := by
  rw [length_flatMap_blocks (length_packPixel p), Vector.length_toList]

theorem length_packDisplay (p : Vector Byte 4) (d : Display) : (packDisplay p d).length = 8192 := by
  rw [packDisplay, length_flatMap_blocks (length_packRow p), Vector.length_toList]

/-- Byte `b` of pixel `(r, c)` stands at `4 * (64 * r + c) + b`. -/
theorem getElem?_packDisplay (p : Vector Byte 4) (d : Display) (r : Fin 32) (c : Fin 64) {b : Nat} (hb : b < 4) :
    (packDisplay p d)[4 * (64 * r.val + c.val) + b]? = some (if pixel d r c then p[b] else 0) := by
  have hplace : 4 * (64 * r.val + c.val) + b = 256 * r.val + (4 * c.val + b) := by omega
  have hrow : d.toList[r.val]? = some (d.get r) := by simp [Vector.get_eq_getElem]
  have hcol : (d.get r).toList[c.val]? = some (pixel d r c) := by simp [pixel, Vector.get_eq_getElem]
  rw [hplace, packDisplay, getElem?_flatMap_blocks (length_packRow p) _ _ (by omega), hrow, Option.bind_some,
    getElem?_flatMap_blocks (length_packPixel p) _ _ hb, hcol, Option.bind_some, getElem?_packPixel p _ hb]

theorem hostCall_readSound {s : State} (hs : s.slot = 0) : hostCall .readSound s = .next (s, .tone (toneOn s)) := by
  simp [hostCall, hs]

/-- Settles O55: the buffer is the packed display, whose bytes have their places, and the tone is the test of ST. -/
theorem hostReadsShowTheState : Obligations.HostReadsShowTheState := by
  unfold Obligations.HostReadsShowTheState
  intro s hs
  exact ⟨⟨_, hostCall_readDisplay hs, length_packDisplay _ _, fun r c b hb => getElem?_packDisplay _ _ r c hb⟩,
    _, hostCall_readSound hs, bne_iff_ne⟩

/-! ## A word placed by the host (log 14) -/

theorem readyToFetch_pc_le (s : State) : s.readyToFetch.pc.toNat ≤ 4094 := by
  show (if s.halted then 512#16 else s.pc).toNat ≤ 4094
  cases hh : s.halted with
  | true => simp
  | false => exact s.halted_eq_false_iff.mp hh

theorem readyToFetch_batchSize_pos (s : State) : 0 < s.readyToFetch.batchSize := by
  show 0 < (if s.batchSize = 0 then 600 else s.clockSpeed) / 60
  split
  · decide
  · next h0 => exact Nat.pos_of_ne_zero h0

theorem readyToFetch_slot_lt (s : State) : s.readyToFetch.slot < s.readyToFetch.batchSize := by
  show (if s.slot < s.readyToFetch.batchSize then s.slot else 0) < s.readyToFetch.batchSize
  split
  · assumption
  · exact readyToFetch_batchSize_pos s

/-- Made ready, a machine is not stopped, not halted, and has a slot of its batch left. -/
theorem running_readyToFetch (s : State) : Running s.readyToFetch :=
  ⟨rfl, readyToFetch_pc_le s, readyToFetch_slot_lt s⟩

theorem fetchWord_placeWord (s : State) (w : Word) : (s.placeWord w).fetchWord = w :=
  (wordAt_writeBytes s.mem s.pc.toNat _ _ []).trans (wordOfBytes_of_word w)

theorem tableWord_toNat {w : Nat} (h : w < 65536) : (tableWord 16 w).toNat = w := by
  simp [tableWord]; omega

theorem decodeTableWord_eq (nbits w : Nat) : decodeTableWord nbits w = some (decodeWord (tableWord nbits w)) := by
  simp [decodeTableWord, bytesOfWord, decodeBytes]

/-- Settles O60: the placed word is the one at `pc`, and placing it leaves the machine ready. -/
theorem placedWordRunsNext : Obligations.PlacedWordRunsNext := by
  unfold Obligations.PlacedWordRunsNext
  intro s w hw
  have hfetch : (s.withFetchWord 16 w).fetchWord = tableWord 16 w := fetchWord_placeWord _ _
  exact ⟨running_readyToFetch s, by rw [hfetch, tableWord_toNat hw], by rw [hfetch, decodeTableWord_eq]⟩

end Sys2Proof.Machine
